-- ==== Sys2Proof/Word.lean ====
section
/-! DEFINITION. The values the machine computes with: bytes, words, nibbles and 12-bit immediates, all unsigned (spec/00_scope.md R11), and the one widening there is, the zero extension (R12). -/

namespace Sys2Proof

/-- A byte: a V register, a timer, a memory location, the immediate NN (R6, R11). -/
abbrev Byte := BitVec 8

/-- A word: I, pc, a stack entry, an instruction word (R6, R11). -/
abbrev Word := BitVec 16

/-- A nibble: a register number, a key code, a sprite height (R6, R11, R73). -/
abbrev Nibble := BitVec 4

/-- The 12-bit immediate NNN (R73). -/
abbrev Addr12 := BitVec 12

/-- `zext_16` (R12): every widening in this machine is a zero extension. -/
def zext16 {n : Nat} (a : BitVec n) : Word := a.setWidth 16

end Sys2Proof
end

