-- ==== Sys2Proof/Syntax.lean ====
section
/-! DEFINITION. The instruction set: one constructor per row of spec/opcode_table.json, in the order of spec/30_encoding.md R76. An operand is the field of R73 that carries it, at that field's width. -/

namespace Sys2Proof

/-- The 34 instructions (R76). "The set is closed." -/
inductive Instr where
  /-- `CLS`, 00E0 -/
  | cls
  /-- `RET`, 00EE -/
  | ret
  /-- `JP NNN`, 1NNN -/
  | jp (nnn : Addr12)
  /-- `CALL NNN`, 2NNN -/
  | call (nnn : Addr12)
  /-- `SE Vx, NN`, 3XNN -/
  | seImm (x : Nibble) (nn : Byte)
  /-- `SNE Vx, NN`, 4XNN -/
  | sneImm (x : Nibble) (nn : Byte)
  /-- `SE Vx, Vy`, 5XY0 -/
  | seReg (x y : Nibble)
  /-- `SNE Vx, Vy`, 9XY0 -/
  | sneReg (x y : Nibble)
  /-- `LD Vx, NN`, 6XNN -/
  | ldImm (x : Nibble) (nn : Byte)
  /-- `ADD Vx, NN`, 7XNN -/
  | addImm (x : Nibble) (nn : Byte)
  /-- `LD Vx, Vy`, 8XY0 -/
  | ldReg (x y : Nibble)
  /-- `OR Vx, Vy`, 8XY1 -/
  | orReg (x y : Nibble)
  /-- `AND Vx, Vy`, 8XY2 -/
  | andReg (x y : Nibble)
  /-- `XOR Vx, Vy`, 8XY3 -/
  | xorReg (x y : Nibble)
  /-- `ADD Vx, Vy`, 8XY4 -/
  | addReg (x y : Nibble)
  /-- `SUB Vx, Vy`, 8XY5 -/
  | sub (x y : Nibble)
  /-- `SUBN Vx, Vy`, 8XY7 -/
  | subn (x y : Nibble)
  /-- `SHR Vx, Vy`, 8XY6 -/
  | shr (x y : Nibble)
  /-- `SHL Vx, Vy`, 8XYE -/
  | shl (x y : Nibble)
  /-- `LD I, NNN`, ANNN -/
  | ldI (nnn : Addr12)
  /-- `JP V0, NNN`, BNNN: the table's row has both fields, NNN and X; X is the top nibble of NNN (R73, R108) -/
  | jpV0 (x : Nibble) (nnn : Addr12)
  /-- `RND Vx, NN`, CXNN -/
  | rnd (x : Nibble) (nn : Byte)
  /-- `DRW Vx, Vy, N`, DXYN -/
  | drw (x y n : Nibble)
  /-- `SKP Vx`, EX9E -/
  | skp (x : Nibble)
  /-- `SKNP Vx`, EXA1 -/
  | sknp (x : Nibble)
  /-- `LD Vx, K`, FX0A -/
  | ldKey (x : Nibble)
  /-- `LD Vx, DT`, FX07 -/
  | ldFromDt (x : Nibble)
  /-- `LD DT, Vx`, FX15 -/
  | ldDt (x : Nibble)
  /-- `LD ST, Vx`, FX18 -/
  | ldSt (x : Nibble)
  /-- `ADD I, Vx`, FX1E -/
  | addI (x : Nibble)
  /-- `LD F, Vx`, FX29 -/
  | ldF (x : Nibble)
  /-- `LD B, Vx`, FX33 -/
  | ldB (x : Nibble)
  /-- `LD [I], Vx`, FX55 -/
  | storeRegs (x : Nibble)
  /-- `LD Vx, [I]`, FX65 -/
  | loadRegs (x : Nibble)
deriving DecidableEq, Repr

end Sys2Proof
end

