-- ==== Sys2Proof/WellFormed.lean ====
section
/-! DEFINITION. Which instruction terms stand for a word. Every field has its exact width in the syntax, so the one thing left to check is the one overlap of two fields: in `JP V0, NNN` the X field is the top nibble of NNN (spec/30_encoding.md R73, spec/40_control_flow.md R108). -/

namespace Sys2Proof

/-- The top nibble of NNN: bits 11:8 of the word (R73). -/
def topNibble (nnn : Addr12) : Nibble := nnn.extractLsb' 8 4

/-- An instruction is well formed when its fields can come from one word (R73, R78). -/
def Instr.wellFormed : Instr → Bool
  | .jpV0 x nnn => decide (x = topNibble nnn)
  | .cls | .ret | .jp _ | .call _ | .seImm _ _ | .sneImm _ _ | .seReg _ _ | .sneReg _ _ => true
  | .ldImm _ _ | .addImm _ _ | .ldReg _ _ | .orReg _ _ | .andReg _ _ | .xorReg _ _ => true
  | .addReg _ _ | .sub _ _ | .subn _ _ | .shr _ _ | .shl _ _ | .ldI _ | .rnd _ _ => true
  | .drw _ _ _ | .skp _ | .sknp _ | .ldKey _ | .ldFromDt _ | .ldDt _ | .ldSt _ => true
  | .addI _ | .ldF _ | .ldB _ | .storeRegs _ | .loadRegs _ => true

end Sys2Proof
end

