-- ==== Sys2Proof/Decode.lean ====
section
/-! DEFINITION. From words to instructions and back: the fields of spec/30_encoding.md R73, the decoder of R77 (total, exact on every fixed bit, rejecting by name), the encoder, and the opcode table of R76 as rows of mask and match. -/

namespace Sys2Proof

/-! ## Fields of a word (R73) -/

/-- The family selector T, bits 15:12. -/
def fieldT (op : Word) : Nibble := op.extractLsb' 12 4
/-- X, bits 11:8. -/
def fieldX (op : Word) : Nibble := op.extractLsb' 8 4
/-- Y, bits 7:4. -/
def fieldY (op : Word) : Nibble := op.extractLsb' 4 4
/-- N, bits 3:0. -/
def fieldN (op : Word) : Nibble := op.extractLsb' 0 4
/-- NN, bits 7:0. -/
def fieldNN (op : Word) : Byte := op.extractLsb' 0 8
/-- NNN, bits 11:0. -/
def fieldNNN (op : Word) : Addr12 := op.extractLsb' 0 12

/-! ## The decoder -/

/-- Why bytes are not an instruction. -/
inductive DecodeError where
  /-- Fewer than the two bytes of an instruction are given (R72). -/
  | tooFewBytes
  /-- The word matches no row of the opcode table (R79). -/
  | unknownOpcode (op : Word)
deriving DecidableEq, Repr

/-- The rows whose T is 0: all 16 bits are fixed (R75 FIXED). -/
def decodeFixed (op : Word) : Except DecodeError Instr :=
  match (fieldNNN op).toNat with
  | 0x0E0 => .ok .cls
  | 0x0EE => .ok .ret
  | _ => .error (.unknownOpcode op)

/-- The rows 8XYn: n selects the operation (R76 rows 11 to 19, R77). -/
def decodeAlu (op : Word) : Except DecodeError Instr :=
  match (fieldN op).toNat with
  | 0x0 => .ok (.ldReg (fieldX op) (fieldY op))
  | 0x1 => .ok (.orReg (fieldX op) (fieldY op))
  | 0x2 => .ok (.andReg (fieldX op) (fieldY op))
  | 0x3 => .ok (.xorReg (fieldX op) (fieldY op))
  | 0x4 => .ok (.addReg (fieldX op) (fieldY op))
  | 0x5 => .ok (.sub (fieldX op) (fieldY op))
  | 0x6 => .ok (.shr (fieldX op) (fieldY op))
  | 0x7 => .ok (.subn (fieldX op) (fieldY op))
  | 0xE => .ok (.shl (fieldX op) (fieldY op))
  | _ => .error (.unknownOpcode op)

/-- The rows 5XY0 and 9XY0: the low nibble must be 0 (R76, R77). -/
def decodeSkipReg (op : Word) (i : Instr) : Except DecodeError Instr :=
  match (fieldN op).toNat with
  | 0x0 => .ok i
  | _ => .error (.unknownOpcode op)

/-- The rows EXnn: nn in 9E, A1 (R76, R77). -/
def decodeKeySkip (op : Word) : Except DecodeError Instr :=
  match (fieldNN op).toNat with
  | 0x9E => .ok (.skp (fieldX op))
  | 0xA1 => .ok (.sknp (fieldX op))
  | _ => .error (.unknownOpcode op)

/-- The rows FXnn: nn in 07, 0A, 15, 18, 1E, 29, 33, 55, 65 (R76, R77). -/
def decodeMisc (op : Word) : Except DecodeError Instr :=
  match (fieldNN op).toNat with
  | 0x07 => .ok (.ldFromDt (fieldX op))
  | 0x0A => .ok (.ldKey (fieldX op))
  | 0x15 => .ok (.ldDt (fieldX op))
  | 0x18 => .ok (.ldSt (fieldX op))
  | 0x1E => .ok (.addI (fieldX op))
  | 0x29 => .ok (.ldF (fieldX op))
  | 0x33 => .ok (.ldB (fieldX op))
  | 0x55 => .ok (.storeRegs (fieldX op))
  | 0x65 => .ok (.loadRegs (fieldX op))
  | _ => .error (.unknownOpcode op)

/-- The instruction of a word, or its name as an unknown opcode (R76, R77, R79). -/
def decode (op : Word) : Except DecodeError Instr :=
  match (fieldT op).toNat with
  | 0x0 => decodeFixed op
  | 0x1 => .ok (.jp (fieldNNN op))
  | 0x2 => .ok (.call (fieldNNN op))
  | 0x3 => .ok (.seImm (fieldX op) (fieldNN op))
  | 0x4 => .ok (.sneImm (fieldX op) (fieldNN op))
  | 0x5 => decodeSkipReg op (.seReg (fieldX op) (fieldY op))
  | 0x6 => .ok (.ldImm (fieldX op) (fieldNN op))
  | 0x7 => .ok (.addImm (fieldX op) (fieldNN op))
  | 0x8 => decodeAlu op
  | 0x9 => decodeSkipReg op (.sneReg (fieldX op) (fieldY op))
  | 0xA => .ok (.ldI (fieldNNN op))
  | 0xB => .ok (.jpV0 (fieldX op) (fieldNNN op))
  | 0xC => .ok (.rnd (fieldX op) (fieldNN op))
  | 0xD => .ok (.drw (fieldX op) (fieldY op) (fieldN op))
  | 0xE => decodeKeySkip op
  | _ => decodeMisc op

/-- Two bytes as a word: the first byte is the high-order byte (spec/20_memory.md R52, R55). -/
def wordOfBytes (hi lo : Byte) : Word := zext16 hi <<< 8 ||| zext16 lo

/-- The bytes of a word as they lie in memory, the high-order byte at the lower address (R52). -/
def bytesOfWord (op : Word) : List Byte := [op.extractLsb' 8 8, op.extractLsb' 0 8]

/-- Decoding from bytes: the instruction and the bytes after it (R72: every instruction is 2 bytes). -/
def decodeBytes : List Byte → Except DecodeError (Instr × List Byte)
  | hi :: lo :: rest =>
    match decode (wordOfBytes hi lo) with
    | .ok i => .ok (i, rest)
    | .error e => .error e
  | _ => .error .tooFewBytes

/-- What the decoder reads from an instruction whose bits are `w`, numbered as the opcode table numbers
them; `nbits` of them are given and the rest are 0. -/
def decodeTableWord (nbits w : Nat) : Option Instr :=
  match decodeBytes (bytesOfWord (BitVec.ofNat 16 (w % 2 ^ nbits))) with
  | .ok (i, _) => some i
  | .error _ => none

/-! ## The encoder (formats of R75, patterns of R76) -/

/-- Format NNN: `T NNN`. -/
def wordNNN (t : Nibble) (nnn : Addr12) : Word := zext16 t <<< 12 ||| zext16 nnn
/-- Formats XNN and X: `T X NN`. -/
def wordXNN (t x : Nibble) (nn : Byte) : Word := zext16 t <<< 12 ||| zext16 x <<< 8 ||| zext16 nn
/-- Formats XY and XYN: `T X Y N`. -/
def wordXYN (t x y n : Nibble) : Word :=
  zext16 t <<< 12 ||| zext16 x <<< 8 ||| zext16 y <<< 4 ||| zext16 n

/-- The word of an instruction (R76). In `JP V0, NNN` the X field is part of NNN. -/
def encode : Instr → Word
  | .cls => 0x00E0
  | .ret => 0x00EE
  | .jp nnn => wordNNN 0x1 nnn
  | .call nnn => wordNNN 0x2 nnn
  | .seImm x nn => wordXNN 0x3 x nn
  | .sneImm x nn => wordXNN 0x4 x nn
  | .seReg x y => wordXYN 0x5 x y 0x0
  | .sneReg x y => wordXYN 0x9 x y 0x0
  | .ldImm x nn => wordXNN 0x6 x nn
  | .addImm x nn => wordXNN 0x7 x nn
  | .ldReg x y => wordXYN 0x8 x y 0x0
  | .orReg x y => wordXYN 0x8 x y 0x1
  | .andReg x y => wordXYN 0x8 x y 0x2
  | .xorReg x y => wordXYN 0x8 x y 0x3
  | .addReg x y => wordXYN 0x8 x y 0x4
  | .sub x y => wordXYN 0x8 x y 0x5
  | .subn x y => wordXYN 0x8 x y 0x7
  | .shr x y => wordXYN 0x8 x y 0x6
  | .shl x y => wordXYN 0x8 x y 0xE
  | .ldI nnn => wordNNN 0xA nnn
  | .jpV0 _ nnn => wordNNN 0xB nnn
  | .rnd x nn => wordXNN 0xC x nn
  | .drw x y n => wordXYN 0xD x y n
  | .skp x => wordXNN 0xE x 0x9E
  | .sknp x => wordXNN 0xE x 0xA1
  | .ldKey x => wordXNN 0xF x 0x0A
  | .ldFromDt x => wordXNN 0xF x 0x07
  | .ldDt x => wordXNN 0xF x 0x15
  | .ldSt x => wordXNN 0xF x 0x18
  | .addI x => wordXNN 0xF x 0x1E
  | .ldF x => wordXNN 0xF x 0x29
  | .ldB x => wordXNN 0xF x 0x33
  | .storeRegs x => wordXNN 0xF x 0x55
  | .loadRegs x => wordXNN 0xF x 0x65

/-- The two bytes of an instruction in memory order. -/
def encodeBytes (i : Instr) : List Byte := bytesOfWord (encode i)

/-! ## The opcode table as data (R76) -/

/-- A row of the table: a word selects it when its bits under the mask equal the match value (R77).
A pair (match value, mask). -/
abbrev TableRow := Word × Word

/-- `op & mask(r) = match(r)` (R77). -/
def selects (op : Word) (r : TableRow) : Bool := decide (op &&& r.2 = r.1)

/-- The row an instruction belongs to, match and mask copied from R76's third column. -/
def rowOf : Instr → TableRow
  | .cls => (0x00E0, 0xFFFF)
  | .ret => (0x00EE, 0xFFFF)
  | .jp _ => (0x1000, 0xF000)
  | .call _ => (0x2000, 0xF000)
  | .seImm _ _ => (0x3000, 0xF000)
  | .sneImm _ _ => (0x4000, 0xF000)
  | .seReg _ _ => (0x5000, 0xF00F)
  | .sneReg _ _ => (0x9000, 0xF00F)
  | .ldImm _ _ => (0x6000, 0xF000)
  | .addImm _ _ => (0x7000, 0xF000)
  | .ldReg _ _ => (0x8000, 0xF00F)
  | .orReg _ _ => (0x8001, 0xF00F)
  | .andReg _ _ => (0x8002, 0xF00F)
  | .xorReg _ _ => (0x8003, 0xF00F)
  | .addReg _ _ => (0x8004, 0xF00F)
  | .sub _ _ => (0x8005, 0xF00F)
  | .subn _ _ => (0x8007, 0xF00F)
  | .shr _ _ => (0x8006, 0xF00F)
  | .shl _ _ => (0x800E, 0xF00F)
  | .ldI _ => (0xA000, 0xF000)
  | .jpV0 _ _ => (0xB000, 0xF000)
  | .rnd _ _ => (0xC000, 0xF000)
  | .drw _ _ _ => (0xD000, 0xF000)
  | .skp _ => (0xE09E, 0xF0FF)
  | .sknp _ => (0xE0A1, 0xF0FF)
  | .ldKey _ => (0xF00A, 0xF0FF)
  | .ldFromDt _ => (0xF007, 0xF0FF)
  | .ldDt _ => (0xF015, 0xF0FF)
  | .ldSt _ => (0xF018, 0xF0FF)
  | .addI _ => (0xF01E, 0xF0FF)
  | .ldF _ => (0xF029, 0xF0FF)
  | .ldB _ => (0xF033, 0xF0FF)
  | .storeRegs _ => (0xF055, 0xF0FF)
  | .loadRegs _ => (0xF065, 0xF0FF)

/-- The 34 rows of R76, in its order. -/
def opcodeTable : List TableRow :=
  [(0x00E0, 0xFFFF), (0x00EE, 0xFFFF), (0x1000, 0xF000), (0x2000, 0xF000), (0x3000, 0xF000),
   (0x4000, 0xF000), (0x5000, 0xF00F), (0x9000, 0xF00F), (0x6000, 0xF000), (0x7000, 0xF000)] ++
  [(0x8000, 0xF00F), (0x8001, 0xF00F), (0x8002, 0xF00F), (0x8003, 0xF00F), (0x8004, 0xF00F),
   (0x8005, 0xF00F), (0x8007, 0xF00F), (0x8006, 0xF00F), (0x800E, 0xF00F), (0xA000, 0xF000)] ++
  [(0xB000, 0xF000), (0xC000, 0xF000), (0xD000, 0xF000), (0xE09E, 0xF0FF), (0xE0A1, 0xF0FF),
   (0xF00A, 0xF0FF), (0xF007, 0xF0FF), (0xF015, 0xF0FF), (0xF018, 0xF0FF), (0xF01E, 0xF0FF)] ++
  [(0xF029, 0xF0FF), (0xF033, 0xF0FF), (0xF055, 0xF0FF), (0xF065, 0xF0FF)]

end Sys2Proof
end

