-- ==== Sys2Proof/Config.lean ====
section
/-! DEFINITION. What an implementation fixes (the parameters of spec/00_scope.md R7) and the free inputs of a cycle (spec/10_state.md R39(a), (b)). -/

namespace Sys2Proof

/-- The parameters of R7, plain data: a claim may name one value of them or quantify over them.
(OOB_POLICY has the one value "fault", which spec/20_memory.md R56 is.) -/
structure Config where
  /-- PROGRAM_BASE: where `load` puts the first program byte and where the first cycle fetches (R7, D1). -/
  programBase : Word
  /-- FONT_BASE: where the font table starts (R7, D2). -/
  fontBase : Word
  /-- FONT_DATA: 16 glyphs of 5 bytes (R7, spec/10_state.md R33, D3). -/
  fontData : Vector (Vector Byte 5) 16
  /-- STACK_DEPTH: `none` is "unbounded" (R7, spec/10_state.md R26, D8). -/
  stackDepth : Option Nat
deriving DecidableEq, Repr

/-- The constraint of R7: the font is low, the program higher, they do not overlap, both lie in memory. -/
def Config.valid (c : Config) : Bool :=
  decide (c.fontBase.toNat + 80 ≤ c.programBase.toNat) && decide (c.programBase.toNat < 4096)

/-- The random byte `rnd` of the n-th cycle: a free input, any byte, a fresh one for every cycle
(spec/41_alu.md R133, U11). It has no body on purpose. Log 3. -/
opaque Config.rnd : Nat → Byte

/-- The choice of the n-th cycle among several released keys: a free input (spec/44_keypad.md R186(c), U10).
It has no body on purpose. Log 4. -/
opaque Config.keyChoice : Nat → Nat

end Sys2Proof
end

