-- ==== Sys2Proof/Machine/State.lean ====
section
/-! DEFINITION. The machine's state (spec/10_state.md R20), the operations of the host (spec/00_scope.md R9), the reasons a cycle can stop (spec/60_exceptions.md R212), and the state after reset (R40). Plain data throughout. -/

namespace Sys2Proof.Machine

/-- QUIRKS: six booleans, set by `reset` and never written again (R38). -/
structure Quirks where
  /-- `vf_reset`: OR, AND, XOR zero VF before operating. -/
  vfReset : Bool
  /-- `memory`: I advances after LD [I],Vx and LD Vx,[I]. -/
  memory : Bool
  /-- `clipping`: DRW drops pixels past the edges instead of wrapping them. -/
  clipping : Bool
  /-- `shifting`: SHR and SHL shift VX in place instead of VY. -/
  shifting : Bool
  /-- `jumping`: JP V0,NNN adds VX, X the top nibble of NNN. -/
  jumping : Bool
  /-- `display_wait`: a hint to the driver, held and read by no rule of the core (R168). -/
  displayWait : Bool
deriving DecidableEq, Repr

/-- "each defaulting to off/legacy behavior when absent" (R38). -/
def Quirks.absent : Quirks := ⟨false, false, false, false, false, false⟩

/-- Why a cycle stops (R212). Safe, every one: after a fault nothing is asserted about the core. -/
inductive Fault where
  /-- MemoryOutOfRange: raised by the fetch, DRW, LD B,Vx, LD [I],Vx and LD Vx,[I] for an address above 4095;
  the first offending address (spec/20_memory.md R56). Safe. -/
  | memoryOutOfRange (a : Word)
  /-- StackUnderflow: raised by RET on an empty stack (R28). Safe. -/
  | stackUnderflow
  /-- StackOverflow: raised by CALL when STACK_DEPTH is a number and the stack is full; the value that was to be
  pushed (R27). Safe. -/
  | stackOverflow (w : Word)
  /-- Raised by a cycle of a core that has faulted: "`cycle` is not defined", the core is stuck (R211(d), U17).
  Safe. -/
  | coreFaulted
deriving DecidableEq, Repr

/-- Why the model gives an instruction no meaning. -/
inductive Refusal where
  /-- Raised by an arm of `exec` whose instruction has no meaning yet; no arm does. Safe. -/
  | notModelled (mnemonic : String)
deriving DecidableEq, Repr

/-- The result of the host's last `cycle` or `load`, as the host sees it (spec/60_exceptions.md R210, R216).
No instruction can read it (R210). The model's own field; log 2. -/
inductive Report where
  /-- No cycle and no load since reset. -/
  | nothing
  /-- A cycle executed one instruction of the table. -/
  | ok
  /-- A cycle fetched a word that matches no row (R79). -/
  | unknownOpcode (op : Word)
  /-- A cycle ended in a fault (R211(c)). -/
  | fault (r : Fault)
  /-- A load copied its image (spec/70_reset_and_hazards.md R243). -/
  | loaded
  /-- LoadError.TooLarge: a load of that many bytes did not fit (R212, R243). -/
  | loadTooLarge (length : Nat)
deriving DecidableEq, Repr

/-- The host's operations other than `cycle` (R9). The read-outs change nothing and are functions of the state. -/
inductive HostOp where
  /-- `reset(QUIRKS)` (R240) -/
  | reset (q : Quirks)
  /-- `load(bytes)` (R243) -/
  | load (bytes : List Byte)
  /-- `tick()` (R200) -/
  | tick
  /-- `key_press(k)` (R180) -/
  | keyPress (k : Nibble)
  /-- `key_release(k)` (R181) -/
  | keyRelease (k : Nibble)
  /-- `clear_dirty()` (R166) -/
  | clearDirty
deriving DecidableEq, Repr

/-- One atomic transition of the whole state (R8): the core's or the host's. -/
inductive Event where
  | cycle
  | host (op : HostOp)
deriving DecidableEq, Repr

/-- `mem`: the bytes that differ from their reset contents, by strictly rising address (log 8). -/
abbrev Memory := List Host.Cell

/-- `disp`: 32 rows of 64 one-bit cells; bit x of row y is the cell in column x (R30). -/
abbrev Display := Vector (BitVec 64) 32

/-- The state of the machine: the tuple of R20, the `faulted` mark of R211, the parameters of R7, and three
fields of the model's own. -/
structure State where
  /-- V0 to VF (R21) -/
  v : Vector Byte 16
  /-- the index register I (R25) -/
  i : Word
  /-- the program counter (R23) -/
  pc : Word
  /-- the return stack, its top first (R26) -/
  stack : List Word
  /-- the 4096 bytes of memory (R32) -/
  mem : Memory
  /-- the display cells (R30) -/
  disp : Display
  /-- the dirty flag (R31) -/
  dirty : Bool
  /-- the delay timer DT (R29) -/
  dt : Byte
  /-- the sound timer ST (R29) -/
  st : Byte
  /-- the live set of pressed keys, bit k for key k (R34) -/
  keys : BitVec 16
  /-- the snapshot of the live set (R35) -/
  lastKeys : BitVec 16
  /-- QUIRKS (R38) -/
  quirks : Quirks
  /-- the mark that no step follows a fault (R39(e), R211) -/
  faulted : Bool
  /-- the parameters of R7: read-only, no operation writes them (log 5) -/
  config : Config
  /-- the model's own: how many cycles have completed; it numbers the free inputs (logs 3, 4) -/
  cycleNo : Nat
  /-- the model's own: what the host last saw reported (log 2) -/
  report : Report
  /-- the model's own: what the host applies next, oldest first; empty: it goes on calling `cycle` (log 7) -/
  schedule : List Event
deriving DecidableEq, Repr

/-- The state after `reset(q)` on a machine with parameters `c` (R40, R240). Memory lists nothing: every byte
reads as its reset contents, the font included. -/
def State.resetWith (c : Config) (q : Quirks) : State where
  v := Vector.replicate 16 0
  i := 0
  pc := c.programBase
  stack := []
  mem := []
  disp := Vector.replicate 32 0
  dirty := false
  dt := 0
  st := 0
  keys := 0
  lastKeys := 0
  quirks := q
  faulted := false
  config := c
  cycleNo := 0
  report := .nothing
  schedule := []

/-- The machine right after reset, with the default parameters of R7 and every quirk absent (R38, R40). -/
def State.reset : State := State.resetWith defaultConfig Quirks.absent

end Sys2Proof.Machine
end

