-- ==== Sys2Proof/Machine/Ops.lean ====
section
/-! DEFINITION. The named operations over registers, memory, the return stack and the display on which every meaning rests: the primitives of spec/00_scope.md R12, what a raise does (spec/60_exceptions.md R211), the fetch and the end of a cycle (spec/30_encoding.md R70). -/

namespace Sys2Proof.Machine

/-! ## Updates of one part of the state -/

/-- All sixteen registers at once. -/
def State.setRegs (s : State) (v : Vector Byte 16) : State := { s with v := v }
/-- `I <- w` -/
def State.setI (s : State) (w : Word) : State := { s with i := w }
/-- `pc <- w` -/
def State.setPc (s : State) (w : Word) : State := { s with pc := w }
/-- The return stack. -/
def State.setStack (s : State) (st : List Word) : State := { s with stack := st }
/-- The memory. -/
def State.setMem (s : State) (m : Memory) : State := { s with mem := m }
/-- `DT <- b` -/
def State.setDt (s : State) (b : Byte) : State := { s with dt := b }
/-- `ST <- b` -/
def State.setSt (s : State) (b : Byte) : State := { s with st := b }

/-! ## Registers (spec/10_state.md R21) -/

/-- `V[x]` -/
def State.reg (s : State) (x : Nibble) : Byte := s.v[x.toNat]'x.isLt

/-- `V[x] <- b` -/
def State.setReg (s : State) (x : Nibble) (b : Byte) : State := s.setRegs (s.v.set x.toNat b x.isLt)

/-- VF, the register several instructions use as a flag output (R22). -/
def vf : Nibble := 0xF

/-- `V[first..] <- bytes`, one register after another. -/
def fillRegs (v : Vector Byte 16) (first : Nat) : List Byte → Vector Byte 16
  | [] => v
  | b :: bs => fillRegs (v.setIfInBounds first b) (first + 1) bs

/-- The values of `V[0]` to `V[x]` inclusive, `V[0]` first. -/
def State.regsUpTo (s : State) (x : Nibble) : List Byte := s.v.toList.take (x.toNat + 1)

/-! ## Memory (spec/20_memory.md) -/

/-- What a byte that nothing has written reads as: its reset contents, the font table at FONT_BASE and 0
elsewhere (spec/10_state.md R33, R40). Glyph `g` is the five bytes from FONT_BASE + 5g (R32). -/
def resetByte (c : Config) (a : Nat) : Byte :=
  if h : c.fontBase.toNat ≤ a ∧ a < c.fontBase.toNat + 80 then
    (c.fontData[(a - c.fontBase.toNat) / 5]'(by omega))[(a - c.fontBase.toNat) % 5]'(by omega)
  else 0

/-- `mem[a]` -/
def Memory.read (c : Config) (m : Memory) (a : Nat) : Byte :=
  match m with
  | [] => resetByte c a
  | (a', b) :: rest => if a = a' then b else Memory.read c rest a

/-- A cell in canonical form: nothing when the byte is its reset contents. -/
def cellOf (c : Config) (a : Nat) (b : Byte) : Memory := if b = resetByte c a then [] else [(a, b)]

/-- `mem[a] <- b`, keeping the canonical form. -/
def Memory.write (c : Config) (m : Memory) (a : Nat) (b : Byte) : Memory :=
  match m with
  | [] => cellOf c a b
  | (a', b') :: rest =>
    if a < a' then cellOf c a b ++ (a', b') :: rest
    else if a = a' then cellOf c a b ++ rest
    else (a', b') :: Memory.write c rest a b

/-- `mem[a], mem[a+1], ... <- bytes`. -/
def Memory.writeRun (c : Config) (m : Memory) (a : Nat) : List Byte → Memory
  | [] => m
  | b :: bs => Memory.writeRun c (Memory.write c m a b) (a + 1) bs

/-- The cells from address `lo` on are in canonical form: addresses strictly rising and below 4096, no cell
equal to its reset contents. -/
def Memory.wfFrom (c : Config) (lo : Nat) : Memory → Bool
  | [] => true
  | (a, b) :: rest =>
    decide (lo ≤ a) && decide (a < 4096) && decide (b ≠ resetByte c a) && Memory.wfFrom c (a + 1) rest

/-- The canonical form of memory. -/
def Memory.wf (c : Config) (m : Memory) : Bool := Memory.wfFrom c 0 m

/-- `mem[a]` of a state. -/
def State.byteAt (s : State) (a : Nat) : Byte := Memory.read s.config s.mem a

/-- `MemRead(a, 1)` (R53). -/
def memRead (s : State) (a : Word) : Except Fault Byte :=
  if a.toNat > 4095 then .error (.memoryOutOfRange a) else .ok (s.byteAt a.toNat)

/-- `MemWrite(a, 1, b)` (R54). -/
def memWrite (s : State) (a : Word) (b : Byte) : Except Fault State :=
  if a.toNat > 4095 then .error (.memoryOutOfRange a)
  else .ok (s.setMem (Memory.write s.config s.mem a.toNat b))

/-- `MemRead` of `n` bytes one after another at `a`, `a + 1`, ..., addresses mod 65536 (R65); the first address
out of range raises. -/
def readBytes (s : State) (a : Word) : Nat → Except Fault (List Byte)
  | 0 => .ok []
  | n + 1 =>
    match memRead s a with
    | .error r => .error r
    | .ok b =>
      match readBytes s (a + 1) n with
      | .error r => .error r
      | .ok bs => .ok (b :: bs)

/-- `MemWrite` of the bytes one after another at `a`, `a + 1`, ..., addresses mod 65536 (R65); the first address
out of range raises. -/
def writeBytes (s : State) (a : Word) : List Byte → Except Fault State
  | [] => .ok s
  | b :: bs =>
    match memWrite s a b with
    | .error r => .error r
    | .ok s' => writeBytes s' (a + 1) bs

/-! ## The return stack (spec/10_state.md R27, R28) -/

/-- `push(w)`: faults when STACK_DEPTH is a number and the stack has that many entries. -/
def push (s : State) (w : Word) : Except Fault State :=
  if s.config.stackDepth = some s.stack.length then .error (.stackOverflow w)
  else .ok (s.setStack (w :: s.stack))

/-- `pop()`: the top entry and the state without it; faults on an empty stack. -/
def pop (s : State) : Except Fault (Word × State) :=
  match s.stack with
  | [] => .error .stackUnderflow
  | w :: rest => .ok (w, s.setStack rest)

/-! ## The display (spec/43_display.md R160, R164) -/

/-- The part of the state the display engine works on. -/
structure Screen where
  disp : Display
  dirty : Bool
deriving DecidableEq, Repr

/-- The display buffer of a state. -/
def State.screen (s : State) : Screen := ⟨s.disp, s.dirty⟩

/-- Put a display buffer into a state. -/
def State.setScreen (s : State) (scr : Screen) : State := { s with disp := scr.disp, dirty := scr.dirty }

/-- `disp[x, y]` -/
def cell (d : Display) (x : Fin 64) (y : Fin 32) : Bool := d[y.val].getLsbD x.val

/-- `disp[x, y] <- b` -/
def setCell (d : Display) (x : Fin 64) (y : Fin 32) (b : Bool) : Display :=
  let one : BitVec 64 := 1#64 <<< x.val
  d.set y.val (if b then d[y.val] ||| one else d[y.val] &&& ~~~one)

/-- `set_pixel(x, y, bit)`: XOR into the cell, dirty iff the cell changed, and whether it went from 1 to 0
(R160). -/
def setPixel (scr : Screen) (x : Fin 64) (y : Fin 32) (bit : Bool) : Screen × Bool :=
  let old := cell scr.disp x y
  let new := old ^^ bit
  (⟨setCell scr.disp x y new, scr.dirty || (new != old)⟩, old && !new)

/-- Where a target pixel lands: nowhere when it is clipped, else the cell, wrapped (R164). -/
def target (clipping : Bool) (tx ty : Nat) : Option (Fin 64 × Fin 32) :=
  if clipping then
    if h : tx < 64 ∧ ty < 32 then some (⟨tx, h.1⟩, ⟨ty, h.2⟩) else none
  else some (⟨tx % 64, Nat.mod_lt _ (by decide)⟩, ⟨ty % 32, Nat.mod_lt _ (by decide)⟩)

/-- One source bit at its target; a clipped one is consumed and changes nothing (R164). -/
def blitPixel (clipping : Bool) (scr : Screen) (tx ty : Nat) (bit : Bool) : Screen × Bool :=
  match target clipping tx ty with
  | none => (scr, false)
  | some (x, y) => setPixel scr x y bit

/-- The eight source bits of a sprite byte, the most significant first: bit 7 goes to column 0 (R164). -/
def spriteBits (b : Byte) : List Bool :=
  [b.getLsbD 7, b.getLsbD 6, b.getLsbD 5, b.getLsbD 4, b.getLsbD 3, b.getLsbD 2, b.getLsbD 1, b.getLsbD 0]

/-- The source bits of one row from column `tx` on, left to right; the flag says whether a pixel went from 1
to 0. -/
def blitRow (clipping : Bool) (scr : Screen) (tx ty : Nat) : List Bool → Screen × Bool
  | [] => (scr, false)
  | bit :: bits =>
    let p := blitPixel clipping scr tx ty bit
    let r := blitRow clipping p.1 (tx + 1) ty bits
    (r.1, p.2 || r.2)

/-- `blit(x0, y0, rows)`: the rows from `y0` down, top row first; the flag is the collision bit (R164). -/
def blit (clipping : Bool) (scr : Screen) (x0 y0 : Nat) : List Byte → Screen × Bool
  | [] => (scr, false)
  | b :: bs =>
    let p := blitRow clipping scr x0 y0 (spriteBits b)
    let r := blit clipping p.1 x0 (y0 + 1) bs
    (r.1, p.2 || r.2)

/-! ## Raising, and the ends of a cycle -/

/-- The outcome of a meaning: a raise discards every change of the cycle, for the fault carries no state
(R211(a)). -/
def finish : Except Fault State → Host.Outcome State Fault Refusal
  | .ok s => .next s
  | .error r => .fault r

/-- What the host sees after a cycle that raised: the state before the cycle with the `faulted` mark set and the
fault reported; no snapshot is taken (R211). This is the machine's only exception entry: there is no handler, no
saved state and no return but `reset` (R219, R220). -/
def State.afterFault (s : State) (r : Fault) : State := { s with faulted := true, report := .fault r }

/-- `MemRead(pc, 2)`: the instruction word, big-endian, both byte reads checked in order (R55, R70 step 1). -/
def fetch (s : State) : Except Fault Word :=
  match memRead s s.pc with
  | .error r => .error r
  | .ok hi =>
    match memRead s (s.pc + 1) with
    | .error r => .error r
    | .ok lo => .ok (wordOfBytes hi lo)

/-- `pc <- (pc + 2) mod 65536` (R70 step 3). -/
def State.advance (s : State) : State := s.setPc (s.pc + 2)

/-- The end of a cycle that raised nothing: the snapshot (R70 step 6, spec/44_keypad.md R182), and the model's own
bookkeeping, the report to the host and the number of the next cycle's free inputs. -/
def State.endCycle (s : State) (r : Report) : State :=
  { s with lastKeys := s.keys, report := r, cycleNo := s.cycleNo + 1 }

/-- A word stored big-endian at `pc`, where the next cycle fetches; there is such a place when `pc` is at most
4094 (R23). -/
def State.storeWordAtPc (s : State) (op : Word) : State :=
  if s.pc.toNat ≤ 4094 then s.setMem (Memory.writeRun s.config s.mem s.pc.toNat (bytesOfWord op)) else s

end Sys2Proof.Machine
end

