-- ==== Sys2Proof/Machine/Flags.lean ====
section
/-! DEFINITION. The flag values that instructions put into VF (spec/10_state.md R41, spec/41_alu.md R131). -/

namespace Sys2Proof.Machine

/-- A flag as a register value: 1 or 0. -/
def flagByte (b : Bool) : Byte := if b then 1 else 0

/-- ADD: 1 exactly when the unwrapped sum exceeds 255 (R126, R131(a)). -/
def carryFlag (a b : Byte) : Byte := flagByte (decide (a.toNat + b.toNat > 255))

/-- SUB and SUBN: 1 exactly when the minuend is at least the subtrahend, no borrow (R127, R129, R131(b)). -/
def notBorrowFlag (a b : Byte) : Byte := flagByte (decide (a.toNat ≥ b.toNat))

/-- SHR: bit 0 of the value before shifting (R128). -/
def shiftedOutRight (a : Byte) : Byte := a &&& 1

/-- SHL: bit 7 of the value before shifting (R130). -/
def shiftedOutLeft (a : Byte) : Byte := a >>> 7

end Sys2Proof.Machine
end

