-- ==== Sys2Proof/Machine/Operands.lean ====
section
/-! DEFINITION. The operand forms: which value an instruction takes and where it goes (spec/30_encoding.md R74, spec/40_control_flow.md R107, R108, spec/41_alu.md R128, spec/42_index_memory.md R142, R143, spec/44_keypad.md R183). -/

namespace Sys2Proof.Machine

/-- `skip`: `pc <- (pc + 2) mod 65536` when the condition holds (R107). -/
def skipIf (c : Bool) (s : State) : State := if c then s.setPc (s.pc + 2) else s

/-- The register `JP V0,NNN` adds: V0, or VX under `jumping` (R108). -/
def jumpOffset (x : Nibble) (s : State) : Byte := if s.quirks.jumping then s.reg x else s.reg 0

/-- The first statement of SHR and SHL: unless `shifting`, VX is first set to VY (R128, R130). -/
def shiftSource (x y : Nibble) (s : State) : State :=
  if s.quirks.shifting then s else s.setReg x (s.reg y)

/-- The first statement of OR, AND and XOR: under `vf_reset` VF is zeroed before the operands are read (R123). -/
def clearVfFirst (s : State) : State := if s.quirks.vfReset then s.setReg vf 0 else s

/-- The address of a glyph: only the low nibble of the register selects it (R142). -/
def glyphAddress (c : Config) (b : Byte) : Word := c.fontBase + 5 * zext16 (b &&& 0xF)

/-- The hundreds, tens and units digit of a byte (R143). -/
def bcdDigits (b : Byte) : List Byte :=
  [BitVec.ofNat 8 (b.toNat / 100), BitVec.ofNat 8 (b.toNat / 10 % 10), BitVec.ofNat 8 (b.toNat % 10)]

/-- The end of LD [I],Vx and LD Vx,[I]: under `memory`, `I <- (I + X + 1) mod 65536` (R144, R145). -/
def advanceIndex (x : Nibble) (s : State) : State :=
  if s.quirks.memory then s.setI (s.i + zext16 x + 1) else s

/-- Whether the key with that code is in a set. A code of 16 or more never is (R184, D22). -/
def isPressed (keys : BitVec 16) (b : Byte) : Bool := keys.getLsbD b.toNat

/-- `released = last_keys - keys` (R183). -/
def released (s : State) : BitVec 16 := s.lastKeys &&& ~~~s.keys

/-- The codes of the keys in a set, lowest first. -/
def keyCodes (set : BitVec 16) : List Nibble :=
  ((List.range 16).filter fun k => set.getLsbD k).map fun k => BitVec.ofNat 4 k

/-- One element of a nonempty list, the n-th, or the last when there are not so many. -/
def pick (k : Nibble) : List Nibble → Nat → Nibble
  | [], _ => k
  | k' :: ks, n =>
    match n with
    | 0 => k
    | n + 1 => pick k' ks n

end Sys2Proof.Machine
end

