-- ==== Sys2Proof/Machine/Alu.lean ====
section
/-! DEFINITION. The register load, arithmetic, logic, shift and random instructions (spec/41_alu.md). The statements of each take effect in the order the spec lists them, which decides what is left in VF when X or Y is F (R132). -/

namespace Sys2Proof.Machine

/-- `LD Vx, NN` (R120). -/
def execLdImm (x : Nibble) (nn : Byte) (s : State) : Host.Outcome State Fault Refusal := .next (s.setReg x nn)

/-- `ADD Vx, NN`: no flag (R121). -/
def execAddImm (x : Nibble) (nn : Byte) (s : State) : Host.Outcome State Fault Refusal :=
  .next (s.setReg x (s.reg x + nn))

/-- `LD Vx, Vy`: VF is left alone whatever `vf_reset` is (R122). -/
def execLdReg (x y : Nibble) (s : State) : Host.Outcome State Fault Refusal := .next (s.setReg x (s.reg y))

/-- The shape of OR, AND and XOR: VF zeroed first under `vf_reset`, then the operands read (R123 to R125). -/
def bitwise (f : Byte → Byte → Byte) (x y : Nibble) (s : State) : State :=
  let s' := clearVfFirst s
  s'.setReg x (f (s'.reg x) (s'.reg y))

/-- `OR Vx, Vy` (R123). -/
def execOrReg (x y : Nibble) (s : State) : Host.Outcome State Fault Refusal :=
  .next (bitwise (fun a b => a ||| b) x y s)

/-- `AND Vx, Vy` (R124). -/
def execAndReg (x y : Nibble) (s : State) : Host.Outcome State Fault Refusal :=
  .next (bitwise (fun a b => a &&& b) x y s)

/-- `XOR Vx, Vy` (R125). -/
def execXorReg (x y : Nibble) (s : State) : Host.Outcome State Fault Refusal :=
  .next (bitwise (fun a b => a ^^^ b) x y s)

/-- Result to VX, then flag to VF: the order of ADD, SUB and SUBN (R132). -/
def resultThenFlag (x : Nibble) (result flag : Byte) (s : State) : State := (s.setReg x result).setReg vf flag

/-- Flag to VF, then result to VX: the order of SHR and SHL (R132). -/
def flagThenResult (x : Nibble) (result flag : Byte) (s : State) : State := (s.setReg vf flag).setReg x result

/-- `ADD Vx, Vy` (R126). -/
def execAddReg (x y : Nibble) (s : State) : Host.Outcome State Fault Refusal :=
  .next (resultThenFlag x (s.reg x + s.reg y) (carryFlag (s.reg x) (s.reg y)) s)

/-- `SUB Vx, Vy` (R127). -/
def execSub (x y : Nibble) (s : State) : Host.Outcome State Fault Refusal :=
  .next (resultThenFlag x (s.reg x - s.reg y) (notBorrowFlag (s.reg x) (s.reg y)) s)

/-- `SUBN Vx, Vy` (R129). -/
def execSubn (x y : Nibble) (s : State) : Host.Outcome State Fault Refusal :=
  .next (resultThenFlag x (s.reg y - s.reg x) (notBorrowFlag (s.reg y) (s.reg x)) s)

/-- `SHR Vx, Vy` (R128). -/
def execShr (x y : Nibble) (s : State) : Host.Outcome State Fault Refusal :=
  let s' := shiftSource x y s
  .next (flagThenResult x (s'.reg x >>> 1) (shiftedOutRight (s'.reg x)) s')

/-- `SHL Vx, Vy` (R130). -/
def execShl (x y : Nibble) (s : State) : Host.Outcome State Fault Refusal :=
  let s' := shiftSource x y s
  .next (flagThenResult x (s'.reg x <<< 1) (shiftedOutLeft (s'.reg x)) s')

/-- `RND Vx, NN`: the free byte of this cycle, masked (R133, log 3). -/
def execRnd (x : Nibble) (nn : Byte) (s : State) : Host.Outcome State Fault Refusal :=
  .next (s.setReg x (Config.rnd s.cycleNo &&& nn))

end Sys2Proof.Machine
end

