-- ==== Sys2Proof/Machine/ControlFlow.lean ====
section
/-! DEFINITION. The control transfer instructions (spec/40_control_flow.md). `pc` of the state a meaning is given is already the address of the instruction plus 2 (spec/00_scope.md R13). -/

namespace Sys2Proof.Machine

/-- `RET` (R100). -/
def execRet (s : State) : Host.Outcome State Fault Refusal :=
  match pop s with
  | .error r => .fault r
  | .ok (w, s') => .next (s'.setPc w)

/-- `JP NNN` (R101). -/
def execJp (nnn : Addr12) (s : State) : Host.Outcome State Fault Refusal := .next (s.setPc (zext16 nnn))

/-- `CALL NNN` (R102). -/
def execCall (nnn : Addr12) (s : State) : Host.Outcome State Fault Refusal :=
  match push s s.pc with
  | .error r => .fault r
  | .ok s' => .next (s'.setPc (zext16 nnn))

/-- `SE Vx, NN` (R103). -/
def execSeImm (x : Nibble) (nn : Byte) (s : State) : Host.Outcome State Fault Refusal :=
  .next (skipIf (decide (s.reg x = nn)) s)

/-- `SNE Vx, NN` (R104). -/
def execSneImm (x : Nibble) (nn : Byte) (s : State) : Host.Outcome State Fault Refusal :=
  .next (skipIf (decide (s.reg x ≠ nn)) s)

/-- `SE Vx, Vy` (R105). -/
def execSeReg (x y : Nibble) (s : State) : Host.Outcome State Fault Refusal :=
  .next (skipIf (decide (s.reg x = s.reg y)) s)

/-- `SNE Vx, Vy` (R106). -/
def execSneReg (x y : Nibble) (s : State) : Host.Outcome State Fault Refusal :=
  .next (skipIf (decide (s.reg x ≠ s.reg y)) s)

/-- `JP V0, NNN` (R108). -/
def execJpV0 (x : Nibble) (nnn : Addr12) (s : State) : Host.Outcome State Fault Refusal :=
  .next (s.setPc (zext16 nnn + zext16 (jumpOffset x s)))

end Sys2Proof.Machine
end

