-- ==== Sys2Proof/Machine/Display.lean ====
section
/-! DEFINITION. The display instructions (spec/43_display.md). -/

namespace Sys2Proof.Machine

/-- `CLS`: every cell 0 by a plain overwrite, dirty set unconditionally, VF not written (R161). -/
def execCls (s : State) : Host.Outcome State Fault Refusal :=
  .next (s.setScreen ⟨Vector.replicate 32 0, true⟩)

/-- `DRW Vx, Vy, N`: both start coordinates from the old registers, reduced in either mode; every row read,
clipped or not; then the blit, and its collision bit to VF (R162). -/
def execDrw (x y n : Nibble) (s : State) : Host.Outcome State Fault Refusal :=
  match readBytes s s.i n.toNat with
  | .error r => .fault r
  | .ok rows =>
    let b := blit s.quirks.clipping s.screen ((s.reg x).toNat % 64) ((s.reg y).toNat % 32) rows
    .next (((s.setReg vf 0).setScreen b.1).setReg vf (flagByte b.2))

end Sys2Proof.Machine
end

