-- ==== Sys2Proof/Machine/IndexMemory.lean ====
section
/-! DEFINITION. The index register and memory instructions (spec/42_index_memory.md). Addresses are `(I + k) mod 65536`, then checked (spec/20_memory.md R65, R56). -/

namespace Sys2Proof.Machine

/-- `LD I, NNN` (R140). -/
def execLdI (nnn : Addr12) (s : State) : Host.Outcome State Fault Refusal := .next (s.setI (zext16 nnn))

/-- `ADD I, Vx`: no flag, the wrap is at 65536 (R141). -/
def execAddI (x : Nibble) (s : State) : Host.Outcome State Fault Refusal := .next (s.setI (s.i + zext16 (s.reg x)))

/-- `LD F, Vx` (R142). -/
def execLdF (x : Nibble) (s : State) : Host.Outcome State Fault Refusal :=
  .next (s.setI (glyphAddress s.config (s.reg x)))

/-- `LD B, Vx`: I is not changed (R143). -/
def execLdB (x : Nibble) (s : State) : Host.Outcome State Fault Refusal :=
  finish (writeBytes s s.i (bcdDigits (s.reg x)))

/-- `LD [I], Vx` (R144). -/
def execStoreRegs (x : Nibble) (s : State) : Host.Outcome State Fault Refusal :=
  match writeBytes s s.i (s.regsUpTo x) with
  | .error r => .fault r
  | .ok s' => .next (advanceIndex x s')

/-- `LD Vx, [I]` (R145). -/
def execLoadRegs (x : Nibble) (s : State) : Host.Outcome State Fault Refusal :=
  match readBytes s s.i (x.toNat + 1) with
  | .error r => .fault r
  | .ok bs => .next (advanceIndex x (s.setRegs (fillRegs s.v 0 bs)))

end Sys2Proof.Machine
end

