-- ==== Sys2Proof/Machine/Keypad.lean ====
section
/-! DEFINITION. The key instructions (spec/44_keypad.md). -/

namespace Sys2Proof.Machine

/-- `SKP Vx`: the live set, the whole register value (R184). -/
def execSkp (x : Nibble) (s : State) : Host.Outcome State Fault Refusal :=
  .next (skipIf (isPressed s.keys (s.reg x)) s)

/-- `SKNP Vx` (R185). -/
def execSknp (x : Nibble) (s : State) : Host.Outcome State Fault Refusal :=
  .next (skipIf (!isPressed s.keys (s.reg x)) s)

/-- `LD Vx, K`: a key released since the previous cycle's snapshot, any of them (log 4), or back to this same
instruction (R186). -/
def execLdKey (x : Nibble) (s : State) : Host.Outcome State Fault Refusal :=
  match keyCodes (released s) with
  | [] => .next (s.setPc (s.pc - 2))
  | k :: ks => .next (s.setReg x ((pick k ks (Config.keyChoice s.cycleNo)).setWidth 8))

end Sys2Proof.Machine
end

