-- ==== Sys2Proof/Machine/HostOps.lean ====
section
/-! DEFINITION. The host's operations other than `cycle` (spec/00_scope.md R9) and its read-outs. Each is one atomic transition (R8); each stays defined on a faulted core (spec/60_exceptions.md R211). -/

namespace Sys2Proof.Machine

/-- `reset(q)`: every element of state at the value of spec/10_state.md R40, the `faulted` mark cleared (R240).
The parameters stay. So do two fields of the model's own: what the host does next is the host's, and the free
inputs of later cycles are fresh ones (logs 3, 7). -/
def hostReset (q : Quirks) (s : State) : State :=
  { State.resetWith s.config q with cycleNo := s.cycleNo, schedule := s.schedule }

/-- `load(bytes)`: the remaining capacity is the bound; an image that fits is copied from PROGRAM_BASE and nothing
else changes; one that does not changes no state (R243, R244). The result goes to the host's report. -/
def hostLoad (bytes : List Byte) (s : State) : State :=
  if bytes.length > 4096 - s.config.programBase.toNat then { s with report := .loadTooLarge bytes.length }
  else { s.setMem (Memory.writeRun s.config s.mem s.config.programBase.toNat bytes) with report := .loaded }

/-- One step of a timer toward zero (R200). -/
def countDown (b : Byte) : Byte := if b = 0 then 0 else b - 1

/-- `tick()`: both timers, each by one, stopping at zero (R200). -/
def hostTick (s : State) : State := { s with dt := countDown s.dt, st := countDown s.st }

/-- The set that holds one key. -/
def keyBit (k : Nibble) : BitVec 16 := 1#16 <<< k.toNat

/-- `key_press(k)` (R180). -/
def hostKeyPress (k : Nibble) (s : State) : State := { s with keys := s.keys ||| keyBit k }

/-- `key_release(k)` (R181). -/
def hostKeyRelease (k : Nibble) (s : State) : State := { s with keys := s.keys &&& ~~~keyBit k }

/-- `clear_dirty()` (R166). -/
def hostClearDirty (s : State) : State := { s with dirty := false }

/-- A host operation's effect (R9). -/
def applyHost (op : HostOp) (s : State) : State :=
  match op with
  | .reset q => hostReset q s
  | .load bytes => hostLoad bytes s
  | .tick => hostTick s
  | .keyPress k => hostKeyPress k s
  | .keyRelease k => hostKeyRelease k s
  | .clearDirty => hostClearDirty s

/-! ## Read-outs: functions of the state, they change nothing (R167, R205) -/

/-- The 2048 cells as one sequence: cell (x, y) at position y * 64 + x (R167, R30). -/
def readDisplay (s : State) : List Bool :=
  s.disp.toList.flatMap fun row => (List.range 64).map fun x => row.getLsbD x

/-- The query of `dirty` (R167). -/
def readDirty (s : State) : Bool := s.dirty

/-- The value of ST (R205). -/
def readSoundTimer (s : State) : Byte := s.st

/-- The sound line: the level ST > 0 (R205). -/
def soundActive (s : State) : Bool := decide (s.st.toNat > 0)

end Sys2Proof.Machine
end

