-- ==== Sys2Proof/Machine/Cycle.lean ====
section
/-! DEFINITION. One cycle (spec/30_encoding.md R70), and one atomic operation of either agent as the host sees it (spec/00_scope.md R8, R9, spec/60_exceptions.md R211). -/

namespace Sys2Proof.Machine

/-- Steps 4 to 6 of R70 on the fetched word, in the state after the advance. A word that matches no row changes
nothing more and is reported (R79); the snapshot is taken in either case (R182); a raise ends the cycle. -/
def dispatchWord (op : Word) (s : State) : Host.Outcome State Fault Refusal :=
  match decode op with
  | .error _ => .next (s.endCycle (.unknownOpcode op))
  | .ok i =>
    match exec i s with
    | .next s' => .next (s'.endCycle .ok)
    | .fault r => .fault r
    | .refused r => .refused r

/-- `cycle` (R70). A core that has faulted has no step (R211(d)). -/
def cycle (s : State) : Host.Outcome State Fault Refusal :=
  if s.faulted then .fault .coreFaulted
  else
    match fetch s with
    | .error r => .fault r
    | .ok op => dispatchWord op s.advance

/-- One operation as the host sees it, the state after a fault included; `none` where no step is defined, which
is `cycle` on a faulted core (R211). -/
def perform (e : Event) (s : State) : Option State :=
  match e with
  | .host op => some (applyHost op s)
  | .cycle =>
    match cycle s with
    | .next s' => some s'
    | .fault r => if s.faulted then none else some (s.afterFault r)
    | .refused _ => none

/-- A sequence of operations, in any order and number (R9). -/
def performAll : List Event → State → Option State
  | [], s => some s
  | e :: es, s =>
    match perform e s with
    | none => none
    | some s' => performAll es s'

/-- What happens next: the operation at the head of the host's schedule, or `cycle` when the schedule is empty
(log 7). -/
def runScheduled (s : State) : Host.Outcome State Fault Refusal :=
  match s.schedule with
  | [] => cycle s
  | .cycle :: rest => cycle { s with schedule := rest }
  | .host op :: rest => .next (applyHost op { s with schedule := rest })

end Sys2Proof.Machine
end

