-- ==== Sys2Proof/Machine/Step.lean ====
section
/-! DEFINITION. One step of the machine, and the placing of one instruction where the next step fetches. -/

namespace Sys2Proof.Machine

/-- One atomic transition (spec/00_scope.md R8). -/
def step (s : State) : Host.Outcome State Fault Refusal := runScheduled s

/-- `s` with the instruction of table word `w` stored at `pc`, the core not faulted, and `cycle` the next
operation, so that the very next step fetches and runs it (log 11). -/
def State.withFetchWord (s : State) (nbits w : Nat) : State :=
  { s.storeWordAtPc (BitVec.ofNat 16 (w % 2 ^ nbits)) with faulted := false, schedule := [] }

end Sys2Proof.Machine
end

