-- ==== Sys2Proof/Safety.lean ====
section
/-! DEFINITION. What counts as a safe run, and the words in which statements about the machine are made. -/

namespace Sys2Proof.Machine

/-! ## Invariants and runs -/

/-- What every operation keeps: the parameters meet the constraint of spec/00_scope.md R7, memory is in its
canonical form (so no byte lies outside 0 to 4095), and a stack of finite depth is never over full
(spec/10_state.md R27). -/
def State.Inv (s : State) : Prop :=
  s.config.valid = true ∧ Memory.wf s.config s.mem = true ∧
    ∀ d, s.config.stackDepth = some d → s.stack.length ≤ d

/-- The state after `k` steps, or how they stopped. -/
def runSteps : Nat → State → Host.Outcome State Fault Refusal
  | 0, s => .next s
  | k + 1, s =>
    match step s with
    | .next s' => runSteps k s'
    | .fault r => .fault r
    | .refused r => .refused r

/-- A safe run of `k` steps: no step of it faults or is refused. -/
def SafeFor (k : Nat) (s : State) : Prop := ∃ t, runSteps k s = .next t

/-- The host does nothing but call `cycle`. -/
def State.OnlyCycles (s : State) : Prop := s.schedule = []

/-- The instruction word at an address, big-endian (spec/20_memory.md R52). -/
def State.wordAt (s : State) (a : Nat) : Word := wordOfBytes (s.byteAt a) (s.byteAt (a + 1))

/-- Final at address `A`: `pc = A`, the instruction there is `JP A`, the core is not faulted
(spec/70_reset_and_hazards.md R246). -/
def State.FinalAt (s : State) (A : Addr12) : Prop :=
  s.pc = zext16 A ∧ A.toNat ≤ 4094 ∧ s.wordAt A.toNat = 0x1000 + zext16 A ∧ s.faulted = false

/-! ## Frames -/

/-- Every byte of memory reads as before. -/
def SameBytes (s t : State) : Prop := ∀ a : Nat, t.byteAt a = s.byteAt a

/-- Every register but those listed is as before. -/
def SameRegsBut (xs : List Nibble) (s t : State) : Prop := ∀ r : Nibble, r ∉ xs → t.reg r = s.reg r

/-! ## When an instruction stops (spec/60_exceptions.md R213) -/

/-- The first address out of range of an ascending run from `a` that leaves memory: `max(a, 4096)`. -/
def firstBad (a : Word) : Word := if a.toNat ≤ 4095 then 4096 else a

/-- The fault of a run of `n` byte accesses from `a`, if it has one. -/
def rangeFault (a : Word) (n : Nat) : Option Fault :=
  if n ≥ 1 ∧ a.toNat + (n - 1) > 4095 then some (.memoryOutOfRange (firstBad a)) else none

/-- The fault of an instruction in a state, if it has one: the table of R213, row by row. The state is the one
after the advance, so its `pc` is what CALL pushes. -/
def faultOf (i : Instr) (s : State) : Option Fault :=
  match i with
  | .ret => if s.stack = [] then some .stackUnderflow else none
  | .call _ => if s.config.stackDepth = some s.stack.length then some (.stackOverflow s.pc) else none
  | .drw _ _ n => rangeFault s.i n.toNat
  | .ldB _ => rangeFault s.i 3
  | .storeRegs x | .loadRegs x => rangeFault s.i (x.toNat + 1)
  | .cls | .jp _ | .seImm _ _ | .sneImm _ _ | .seReg _ _ | .sneReg _ _ | .ldImm _ _ | .addImm _ _ => none
  | .ldReg _ _ | .orReg _ _ | .andReg _ _ | .xorReg _ _ | .addReg _ _ | .sub _ _ | .subn _ _ => none
  | .shr _ _ | .shl _ _ | .ldI _ | .jpV0 _ _ | .rnd _ _ | .skp _ | .sknp _ | .ldKey _ => none
  | .ldFromDt _ | .ldDt _ | .ldSt _ | .addI _ | .ldF _ => none

/-! ## What an instruction may change -/

/-- `pc` after the cycle of an instruction fetched at `s.pc`, where the cycle completes: the table of
spec/10_state.md R24. -/
def pcAfter (i : Instr) (s : State) : Word :=
  match i with
  | .jp nnn | .call nnn => zext16 nnn
  | .ret => s.stack.headD 0
  | .jpV0 x nnn => zext16 nnn + zext16 (if s.quirks.jumping then s.reg x else s.reg 0)
  | .seImm x nn => if s.reg x = nn then s.pc + 4 else s.pc + 2
  | .sneImm x nn => if s.reg x = nn then s.pc + 2 else s.pc + 4
  | .seReg x y => if s.reg x = s.reg y then s.pc + 4 else s.pc + 2
  | .sneReg x y => if s.reg x = s.reg y then s.pc + 2 else s.pc + 4
  | .skp x => if s.keys.getLsbD (s.reg x).toNat then s.pc + 4 else s.pc + 2
  | .sknp x => if s.keys.getLsbD (s.reg x).toNat then s.pc + 2 else s.pc + 4
  | .ldKey _ => if s.lastKeys &&& ~~~s.keys = 0 then s.pc else s.pc + 2
  | .cls | .ldImm _ _ | .addImm _ _ | .ldReg _ _ | .orReg _ _ | .andReg _ _ | .xorReg _ _ => s.pc + 2
  | .addReg _ _ | .sub _ _ | .subn _ _ | .shr _ _ | .shl _ _ | .ldI _ | .rnd _ _ | .drw _ _ _ => s.pc + 2
  | .ldFromDt _ | .ldDt _ | .ldSt _ | .addI _ | .ldF _ | .ldB _ | .storeRegs _ | .loadRegs _ => s.pc + 2

/-- The registers an instruction may write: the last three rows of the table of spec/10_state.md R21. -/
def writesReg (i : Instr) (q : Quirks) (r : Nibble) : Prop :=
  match i with
  | .ldImm x _ | .addImm x _ | .ldReg x _ | .rnd x _ | .ldFromDt x | .ldKey x => r = x
  | .orReg x _ | .andReg x _ | .xorReg x _ => r = x ∨ (q.vfReset = true ∧ r = vf)
  | .addReg x _ | .sub x _ | .subn x _ | .shr x _ | .shl x _ => r = x ∨ r = vf
  | .loadRegs x => r.toNat ≤ x.toNat
  | .drw _ _ _ => r = vf
  | .cls | .ret | .jp _ | .call _ | .seImm _ _ | .sneImm _ _ | .seReg _ _ | .sneReg _ _ => False
  | .ldI _ | .jpV0 _ _ | .skp _ | .sknp _ | .ldDt _ | .ldSt _ | .addI _ | .ldF _ | .ldB _ => False
  | .storeRegs _ => False

/-- The addresses an instruction stores to: three from I for LD B,Vx, X + 1 from I for LD [I],Vx, none for any
other (spec/20_memory.md R50, R58). -/
def storesTo (i : Instr) (s : State) (a : Nat) : Prop :=
  match i with
  | .ldB _ => s.i.toNat ≤ a ∧ a ≤ s.i.toNat + 2
  | .storeRegs x => s.i.toNat ≤ a ∧ a ≤ s.i.toNat + x.toNat
  | .cls | .ret | .jp _ | .call _ | .seImm _ _ | .sneImm _ _ | .seReg _ _ | .sneReg _ _ => False
  | .ldImm _ _ | .addImm _ _ | .ldReg _ _ | .orReg _ _ | .andReg _ _ | .xorReg _ _ => False
  | .addReg _ _ | .sub _ _ | .subn _ _ | .shr _ _ | .shl _ _ | .ldI _ | .jpV0 _ _ | .rnd _ _ => False
  | .drw _ _ _ | .skp _ | .sknp _ | .ldKey _ | .ldFromDt _ | .ldDt _ | .ldSt _ | .addI _ => False
  | .ldF _ | .loadRegs _ => False

/-- Where the pixel with target coordinates (tx, ty) lands: under `clipping` only on the cell it names, else on the
cell its coordinates wrap to (spec/43_display.md R164). -/
def Lands (clipping : Bool) (tx ty : Nat) (x : Fin 64) (y : Fin 32) : Prop :=
  if clipping then tx = x.val ∧ ty = y.val else tx % 64 = x.val ∧ ty % 32 = y.val

/-- The source bit of a sprite at `I`, in sprite row `row` and column `col`: column 0 is bit 7 (R164). -/
def spriteBit (s : State) (row col : Nat) : Bool := (s.byteAt (s.i.toNat + row)).getLsbD (7 - col)

/-- The state without what no instruction can read: `dirty`, ST, the `display_wait` quirk
(spec/10_state.md R44, spec/43_display.md R168) and the host's report. -/
def State.readable (s : State) : State :=
  { s with dirty := false, st := 0, report := .nothing, quirks := { s.quirks with displayWait := false } }

end Sys2Proof.Machine
end

