-- ==== Sys2Proof/Certificates/Slice0/Obligations.lean ====
section
/-! DEFINITION. The statements about the machine, made from the numbered rules of spec/, for the provers. `pc` of a state given to `exec` is already the address of the instruction plus 2 (spec/00_scope.md R13). -/

open Sys2Proof Sys2Proof.Machine

/-! ## Encoding (spec/30_encoding.md) -/

/-- R76, R77, R78: no bit of an encoding is dropped, in a word or in a stream of bytes. -/
def Obligations.DecodeOfEncodeIsTheInstruction : Prop :=
  ∀ (i : Instr) (rest : List Byte), i.wellFormed = true →
    decode (encode i) = .ok i ∧ decodeBytes (encodeBytes i ++ rest) = .ok (i, rest)

/-- R77, R78: a word that decodes is the word of the instruction it decodes to; every bit of it is a fixed bit or
an operand bit. -/
def Obligations.EncodeOfDecodeIsTheWord : Prop :=
  ∀ (op : Word) (i : Instr), decode op = .ok i → i.wellFormed = true ∧ encode i = op

/-- R77 (decision D4): the rows are pairwise disjoint, the decoder gives the instruction of the one row a word
selects, and a word that selects none is unknown under its own name. -/
def Obligations.DecodingFollowsTheOneMatchingRow : Prop :=
  (∀ (op : Word) (r r' : TableRow), r ∈ opcodeTable → r' ∈ opcodeTable →
    selects op r = true → selects op r' = true → r = r') ∧
  (∀ (op : Word) (r : TableRow), r ∈ opcodeTable → selects op r = true → ∃ i, decode op = .ok i ∧ rowOf i = r) ∧
  (∀ op : Word, (∀ r ∈ opcodeTable, selects op r = false) → decode op = .error (.unknownOpcode op))

/-- R80 (derived from D4): the unknown words, class by class, and their number. -/
def Obligations.UnknownWordsAreExactlyTheListed : Prop :=
  (∀ op : Word, decode op = .error (.unknownOpcode op) ↔
    ((op.toNat / 4096 = 0x0 ∧ op ≠ 0x00E0 ∧ op ≠ 0x00EE) ∨
     (op.toNat / 4096 = 0x5 ∧ op.toNat % 16 ≠ 0) ∨
     (op.toNat / 4096 = 0x8 ∧ op.toNat % 16 ∈ [0x8, 0x9, 0xA, 0xB, 0xC, 0xD, 0xF]) ∨
     (op.toNat / 4096 = 0x9 ∧ op.toNat % 16 ≠ 0) ∨
     (op.toNat / 4096 = 0xE ∧ op.toNat % 256 ∉ [0x9E, 0xA1]) ∨
     (op.toNat / 4096 = 0xF ∧ op.toNat % 256 ∉ [0x07, 0x0A, 0x15, 0x18, 0x1E, 0x29, 0x33, 0x55, 0x65]))) ∧
  (List.range 65536).countP (fun n => !(decode (BitVec.ofNat 16 n)).isOk) = 21582

/-- R76: words written out from the table, one of each format and family (sanity). -/
def Obligations.SampleWordsDecode : Prop :=
  decode 0x00EE = .ok .ret ∧ decode 0x2ABC = .ok (.call 0xABC) ∧ decode 0x3F01 = .ok (.seImm 0xF 0x01) ∧
  decode 0x8AB7 = .ok (.subn 0xA 0xB) ∧ decode 0xB2A0 = .ok (.jpV0 0x2 0x2A0) ∧ decode 0xD125 = .ok (.drw 1 2 5) ∧
  decode 0xE1A1 = .ok (.sknp 1) ∧ decode 0xF365 = .ok (.loadRegs 3) ∧ decode 0x8128 = .error (.unknownOpcode 0x8128)

/-! ## The cycle (spec/30_encoding.md R70, spec/60_exceptions.md) -/

/-- R52, R55, R213 (first row), R218(1), (2): the fetch reads two bytes, high-order byte first, odd addresses
included; it faults on its first byte above 4095 and on its second at 4095, whatever memory holds; and a fault of the
fetch is the outcome of the cycle, and of the step when nothing is scheduled. (The faults are the spec's decisions D6
and D9, the schedule is the model's own, log 7.) -/
def Obligations.FetchIsBigEndianAndBounded : Prop :=
  ∀ s : State,
    (s.pc.toNat ≤ 4094 → ∃ op, fetch s = .ok op ∧
      op.toNat = (s.byteAt s.pc.toNat).toNat * 256 + (s.byteAt (s.pc.toNat + 1)).toNat) ∧
    (s.pc.toNat = 4095 → fetch s = .error (.memoryOutOfRange 4096)) ∧
    (s.pc.toNat > 4095 → fetch s = .error (.memoryOutOfRange s.pc)) ∧
    (∀ r, s.faulted = false → fetch s = .error r →
      cycle s = .fault r ∧ (s.schedule = [] → step s = .fault r))

/-- R70: when the bytes at `pc` decode to `i`, the step is `exec i` in the state with `pc` advanced by 2, then the
snapshot. (`report` and `cycleNo` are the model's own, logs 2 and 3.) -/
def Obligations.StepRunsTheDecodedInstruction : Prop :=
  ∀ (s : State) (i : Instr), s.schedule = [] → s.faulted = false → s.pc.toNat ≤ 4094 →
    decode (s.wordAt s.pc.toNat) = .ok i →
    (∀ t, exec i { s with pc := s.pc + 2 } = .next t →
      step s = .next { t with lastKeys := t.keys, report := .ok, cycleNo := t.cycleNo + 1 }) ∧
    (∀ r, exec i { s with pc := s.pc + 2 } = .fault r → step s = .fault r)

/-- R8, R9: the operation at the head of the host's schedule happens, one at a time; with nothing scheduled the host
goes on calling `cycle`. The schedule is the model's own field (log 7). -/
def Obligations.ScheduleSaysWhichOperationIsNext : Prop :=
  ∀ (s : State) (rest : List Event),
    (s.schedule = [] → step s = cycle s) ∧
    (s.schedule = .cycle :: rest → step s = cycle { s with schedule := rest }) ∧
    (∀ op, s.schedule = .host op :: rest → step s = .next (applyHost op { s with schedule := rest }))

/-- R79, R210 (decision D10): an unknown opcode is reported; `pc` advances by 2, the snapshot is taken, nothing else
changes. -/
def Obligations.UnknownOpcodeAdvancesAndReports : Prop :=
  ∀ s : State, s.schedule = [] → s.faulted = false → s.pc.toNat ≤ 4094 →
    decode (s.wordAt s.pc.toNat) = .error (.unknownOpcode (s.wordAt s.pc.toNat)) →
    step s = .next { s with pc := s.pc + 2, lastKeys := s.keys, report := .unknownOpcode (s.wordAt s.pc.toNat),
                            cycleNo := s.cycleNo + 1 }

/-- R211 (decision D9): a fault undoes the cycle, sets the mark, and leaves no step until `reset`; the host's
operations stay defined and only `reset` clears the mark. -/
def Obligations.FaultUndoesTheCycleAndSticks : Prop :=
  ∀ (s : State) (r : Fault), s.faulted = false → cycle s = .fault r →
    perform .cycle s = some { s with faulted := true, report := .fault r } ∧
    (∀ u, u.faulted = true → cycle u = .fault .coreFaulted ∧ perform .cycle u = none ∧
      ∀ op, ∃ w, perform (.host op) u = some w ∧ (w.faulted = true ↔ ∀ q, op ≠ .reset q))

/-- R212, R213: an instruction stops exactly where the table says, with the fault the table says, and completes
everywhere else; none is ever refused. -/
def Obligations.InstructionsStopExactlyWhereTheTableSays : Prop :=
  ∀ (i : Instr) (s : State),
    (∀ r, exec i s = .fault r ↔ faultOf i s = some r) ∧
    ((∃ t, exec i s = .next t) ↔ faultOf i s = none) ∧
    (∀ r, exec i s ≠ .refused r)

/-- R70 step 6, R182 (decision D10): every completed cycle ends with the snapshot, an unknown opcode's included; no
operation of the host but `reset` changes the snapshot. -/
def Obligations.EveryCompletedCycleTakesTheSnapshot : Prop :=
  (∀ s t : State, cycle s = .next t → t.lastKeys = s.keys) ∧
  (∀ (op : HostOp) (s : State), (∀ q, op ≠ .reset q) → (applyHost op s).lastKeys = s.lastKeys)

/-- R71, R31, R34, R38: a cycle does not write the live key set, the quirks or the parameters, and does not clear
`dirty`; the timers stay as they are unless the cycle executes LD DT,Vx or LD ST,Vx. -/
def Obligations.CycleLeavesTheHostsSideAlone : Prop :=
  ∀ s t : State, cycle s = .next t →
    t.keys = s.keys ∧ t.quirks = s.quirks ∧ t.config = s.config ∧ t.schedule = s.schedule ∧ t.faulted = false ∧
    (s.dirty = true → t.dirty = true) ∧
    ((∀ x, decode (s.wordAt s.pc.toNat) ≠ .ok (.ldDt x)) → t.dt = s.dt) ∧
    ((∀ x, decode (s.wordAt s.pc.toNat) ≠ .ok (.ldSt x)) → t.st = s.st)

/-- R24: where each of the 34 instructions, and an unknown opcode, leaves `pc`. (That SKP and SKNP compare the whole
byte of VX is decision D22, log 9; that an unknown opcode advances `pc` is decision D10.) -/
def Obligations.PcAfterEachInstruction : Prop :=
  ∀ s t : State, s.pc.toNat ≤ 4094 → cycle s = .next t →
    (∀ i, decode (s.wordAt s.pc.toNat) = .ok i → t.pc = pcAfter i s) ∧
    (∀ e, decode (s.wordAt s.pc.toNat) = .error e → t.pc = s.pc + 2)

/-! ## Who writes what, over all instructions -/

/-- R21, R22, R41: a register changes only under an instruction that the table lists as a writer of it; VF included. -/
def Obligations.RegistersChangeOnlyByTheirWriters : Prop :=
  ∀ (i : Instr) (s t : State) (r : Nibble), exec i s = .next t → ¬ writesReg i s.quirks r → t.reg r = s.reg r

/-- R50, R58, R60: a byte of memory changes only where LD B,Vx or LD [I],Vx stores. -/
def Obligations.MemoryChangesOnlyWhereStored : Prop :=
  ∀ (i : Instr) (s t : State) (a : Nat), s.Inv → exec i s = .next t → ¬ storesTo i s a → t.byteAt a = s.byteAt a

/-- R25, R26, R29, R30, R31: I, the stack, the display with `dirty`, and the timers each change only under their own
instructions; the fields of the host's side and the model's own never change inside an instruction. -/
def Obligations.OtherUnitsChangeOnlyByTheirInstructions : Prop :=
  ∀ (i : Instr) (s t : State), exec i s = .next t →
    ((∀ nnn, i ≠ .ldI nnn) → (∀ x, i ≠ .addI x) → (∀ x, i ≠ .ldF x) →
      (∀ x, i = .storeRegs x ∨ i = .loadRegs x → s.quirks.memory = false) → t.i = s.i) ∧
    (i ≠ .ret → (∀ nnn, i ≠ .call nnn) → t.stack = s.stack) ∧
    (i ≠ .cls → (∀ x y n, i ≠ .drw x y n) → t.disp = s.disp ∧ t.dirty = s.dirty) ∧
    ((∀ x, i ≠ .ldDt x) → t.dt = s.dt) ∧ ((∀ x, i ≠ .ldSt x) → t.st = s.st) ∧
    t.keys = s.keys ∧ t.lastKeys = s.lastKeys ∧ t.quirks = s.quirks ∧ t.faulted = s.faulted ∧
    t.config = s.config ∧ t.cycleNo = s.cycleNo ∧ t.report = s.report ∧ t.schedule = s.schedule

/-- R44, R168, R31: no instruction can read `dirty`, ST or the `display_wait` quirk: two states that differ only
there (and in the host's report, log 2) take cycles that differ only there. -/
def Obligations.DirtySoundAndDisplayWaitAreUnreadable : Prop :=
  ∀ s s' : State, s.readable = s'.readable →
    (∀ t, cycle s = .next t → ∃ t', cycle s' = .next t' ∧ t.readable = t'.readable) ∧
    (∀ r, cycle s = .fault r ↔ cycle s' = .fault r)

/-! ## Control transfer (spec/40_control_flow.md) -/

/-- R100 (decision D7): RET pops the top entry into `pc`, all 16 bits, and changes nothing else; on an empty stack it
faults. -/
def Obligations.RetPopsIntoPc : Prop :=
  ∀ s : State,
    (∀ w rest, s.stack = w :: rest → exec .ret s = .next { s with stack := rest, pc := w }) ∧
    (s.stack = [] → exec .ret s = .fault .stackUnderflow)

/-- R102, R27 (decision D8): CALL pushes the advanced `pc` and jumps; it faults exactly when STACK_DEPTH is a number
and the stack has that many entries. -/
def Obligations.CallPushesTheAdvancedPc : Prop :=
  ∀ (s : State) (nnn : Addr12),
    (s.config.stackDepth ≠ some s.stack.length →
      exec (.call nnn) s = .next { s with stack := s.pc :: s.stack, pc := zext16 nnn }) ∧
    (s.config.stackDepth = some s.stack.length → exec (.call nnn) s = .fault (.stackOverflow s.pc))

/-- R100, R102, conflict C2: two nested calls and two returns come back to the address after each call, last in first
out, and leave the stack as it was, whatever the subroutines did to the rest of the state. -/
def Obligations.NestedCallsReturnInReverseOrder : Prop :=
  ∀ (s : State) (a b : Addr12), (∀ d, s.config.stackDepth = some d → s.stack.length + 2 ≤ d) →
    ∃ t1, exec (.call a) s = .next t1 ∧
      ∀ u1, u1.stack = t1.stack → u1.config = s.config → ∃ t2, exec (.call b) u1 = .next t2 ∧
        ∀ u2, u2.stack = t2.stack → ∃ t3, exec .ret u2 = .next t3 ∧ t3.pc = u1.pc ∧
          ∀ u3, u3.stack = t3.stack → ∃ t4, exec .ret u3 = .next t4 ∧ t4.pc = s.pc ∧ t4.stack = s.stack

/-- R101, R108: JP goes to NNN, JP V0 to NNN plus V0, or plus VX under `jumping`; the sum is a 16-bit one that never
wraps; nothing but `pc` changes. -/
def Obligations.JumpsSetPcAlone : Prop :=
  ∀ (s : State) (x : Nibble) (nnn : Addr12),
    (∃ t, exec (.jp nnn) s = .next t ∧ t = { s with pc := t.pc } ∧ t.pc.toNat = nnn.toNat) ∧
    (∃ t, exec (.jpV0 x nnn) s = .next t ∧ t = { s with pc := t.pc } ∧
      t.pc.toNat = nnn.toNat + (if s.quirks.jumping then s.reg x else s.reg 0).toNat)

/-- R103 to R107: the four compare-and-skip instructions move `pc` by 2 more exactly when their condition holds and
change nothing else. -/
def Obligations.SkipsMovePcByTwoWhenTheConditionHolds : Prop :=
  ∀ (s : State) (x y : Nibble) (nn : Byte),
    (s.reg x = nn → exec (.seImm x nn) s = .next { s with pc := s.pc + 2 } ∧ exec (.sneImm x nn) s = .next s) ∧
    (s.reg x ≠ nn → exec (.seImm x nn) s = .next s ∧ exec (.sneImm x nn) s = .next { s with pc := s.pc + 2 }) ∧
    (s.reg x = s.reg y → exec (.seReg x y) s = .next { s with pc := s.pc + 2 } ∧ exec (.sneReg x y) s = .next s) ∧
    (s.reg x ≠ s.reg y → exec (.seReg x y) s = .next s ∧ exec (.sneReg x y) s = .next { s with pc := s.pc + 2 })

/-! ## Registers and arithmetic (spec/41_alu.md) -/

/-- R120, R122, R201: LD Vx,NN, LD Vx,Vy and LD Vx,DT put their value into VX and change nothing else; VF is left
alone unless it is VX, whatever `vf_reset` is. -/
def Obligations.LoadsPutTheirValueIntoVx : Prop :=
  ∀ (s : State) (x y : Nibble) (nn : Byte),
    (∃ t, exec (.ldImm x nn) s = .next t ∧ t.reg x = nn ∧ t = { s with v := t.v } ∧ SameRegsBut [x] s t ∧
      SameBytes s t) ∧
    (∃ t, exec (.ldReg x y) s = .next t ∧ t.reg x = s.reg y ∧ t = { s with v := t.v } ∧ SameRegsBut [x] s t ∧
      SameBytes s t) ∧
    (∃ t, exec (.ldFromDt x) s = .next t ∧ t.reg x = s.dt ∧ t = { s with v := t.v } ∧ SameRegsBut [x] s t ∧
      SameBytes s t)

/-- R121, R131(a): ADD Vx,NN wraps modulo 256 and writes no carry. -/
def Obligations.AddImmediateWrapsWithoutCarry : Prop :=
  ∀ (s : State) (x : Nibble) (nn : Byte),
    ∃ t, exec (.addImm x nn) s = .next t ∧ (t.reg x).toNat = ((s.reg x).toNat + nn.toNat) % 256 ∧
      t = { s with v := t.v } ∧ SameRegsBut [x] s t ∧ SameBytes s t

/-- R123, R124, R125, R132 (decision D12): OR, AND and XOR act on each bit; under `vf_reset` VF is zeroed before the
operands are read, so VF as an operand reads 0; without it VF is untouched unless it is VX. -/
def Obligations.BitwiseOperationsActOnEveryBit : Prop :=
  ∀ (s : State) (x y : Nibble),
    let operand : Nibble → Byte := fun r => if s.quirks.vfReset = true ∧ r = vf then 0 else s.reg r
    (∃ t, exec (.orReg x y) s = .next t ∧ t = { s with v := t.v } ∧ SameBytes s t ∧
      (∀ j, (t.reg x).getLsbD j = ((operand x).getLsbD j || (operand y).getLsbD j)) ∧
      (∀ r, r ≠ x → t.reg r = operand r)) ∧
    (∃ t, exec (.andReg x y) s = .next t ∧ t = { s with v := t.v } ∧ SameBytes s t ∧
      (∀ j, (t.reg x).getLsbD j = ((operand x).getLsbD j && (operand y).getLsbD j)) ∧
      (∀ r, r ≠ x → t.reg r = operand r)) ∧
    (∃ t, exec (.xorReg x y) s = .next t ∧ t = { s with v := t.v } ∧ SameBytes s t ∧
      (∀ j, (t.reg x).getLsbD j = ((operand x).getLsbD j ^^ (operand y).getLsbD j)) ∧
      (∀ r, r ≠ x → t.reg r = operand r))

/-- R126, R131(a), R132 (decision D12): ADD Vx,Vy wraps modulo 256; VF is 1 exactly when the unwrapped sum exceeds
255, and is written last, so with X = F the sum is lost. -/
def Obligations.AddWritesSumThenCarry : Prop :=
  ∀ (s : State) (x y : Nibble),
    let sum := (s.reg x).toNat + (s.reg y).toNat
    ∃ t, exec (.addReg x y) s = .next t ∧ t = { s with v := t.v } ∧ SameRegsBut [x, vf] s t ∧ SameBytes s t ∧
      (x ≠ vf → (t.reg x).toNat = sum % 256) ∧ (t.reg vf).toNat = (if sum > 255 then 1 else 0)

/-- R127, R129, R131(b), R132 (decision D12): SUB and SUBN wrap modulo 256; VF is 1 exactly when there is no borrow,
and is written last, so with X = F the difference is lost. -/
def Obligations.SubtractionsWriteDifferenceThenNotBorrow : Prop :=
  ∀ (s : State) (x y : Nibble),
    let a := (s.reg x).toNat
    let b := (s.reg y).toNat
    (∃ t, exec (.sub x y) s = .next t ∧ t = { s with v := t.v } ∧ SameRegsBut [x, vf] s t ∧ SameBytes s t ∧
      (x ≠ vf → (t.reg x).toNat = (if a ≥ b then a - b else a + 256 - b)) ∧
      (t.reg vf).toNat = (if a ≥ b then 1 else 0)) ∧
    (∃ t, exec (.subn x y) s = .next t ∧ t = { s with v := t.v } ∧ SameRegsBut [x, vf] s t ∧ SameBytes s t ∧
      (x ≠ vf → (t.reg x).toNat = (if b ≥ a then b - a else b + 256 - a)) ∧
      (t.reg vf).toNat = (if b ≥ a then 1 else 0))

/-- R128, R130, R131(c), R132 (decision D12): SHR and SHL shift VY, or VX in place under `shifting`, by one; the bit
shifted out goes to VF first, so with X = F the result is what remains; VY is only read. -/
def Obligations.ShiftsWriteTheBitThenTheResult : Prop :=
  ∀ (s : State) (x y : Nibble),
    let value := (if s.quirks.shifting then s.reg x else s.reg y).toNat
    (∃ t, exec (.shr x y) s = .next t ∧ t = { s with v := t.v } ∧ SameRegsBut [x, vf] s t ∧ SameBytes s t ∧
      (t.reg x).toNat = value / 2 ∧ (x ≠ vf → (t.reg vf).toNat = value % 2)) ∧
    (∃ t, exec (.shl x y) s = .next t ∧ t = { s with v := t.v } ∧ SameRegsBut [x, vf] s t ∧ SameBytes s t ∧
      (t.reg x).toNat = value * 2 % 256 ∧ (x ≠ vf → (t.reg vf).toNat = value / 128))

/-- R133 (decision D15): RND puts the free byte of the cycle, masked with NN, into VX: for every free byte no bit
outside NN is set, and the rest of the state is unchanged. It holds for every value of the free byte (log 3). -/
def Obligations.RndMasksTheFreeByte : Prop :=
  ∀ (s : State) (x : Nibble) (nn : Byte),
    ∃ t, exec (.rnd x nn) s = .next t ∧ t = { s with v := t.v } ∧ SameRegsBut [x] s t ∧ SameBytes s t ∧
      ∀ j, (t.reg x).getLsbD j = ((Config.rnd s.cycleNo).getLsbD j && nn.getLsbD j)

/-! ## Index and memory (spec/42_index_memory.md, spec/20_memory.md) -/

/-- R54, R60, R56 (decision D6): a write is seen by every later read of its address and by no other; above 4095
there is nothing to read or write. -/
def Obligations.ReadsSeeTheLastWrite : Prop :=
  ∀ (s : State) (a : Word) (b : Byte), s.Inv →
    (a.toNat ≤ 4095 → ∃ t, memWrite s a b = .ok t ∧ t = { s with mem := t.mem } ∧ t.Inv ∧
      ∀ c : Word, c.toNat ≤ 4095 → memRead t c = .ok (if c = a then b else s.byteAt c.toNat)) ∧
    (a.toNat > 4095 → memWrite s a b = .error (.memoryOutOfRange a) ∧ memRead s a = .error (.memoryOutOfRange a))

/-- R140, R141, R142: LD I,NNN, ADD I,Vx and LD F,Vx compute I and change nothing else; no flag, the wrap is at
65536, and only the low nibble of VX selects a glyph. -/
def Obligations.IndexInstructionsComputeI : Prop :=
  ∀ (s : State) (x : Nibble) (nnn : Addr12),
    (∃ t, exec (.ldI nnn) s = .next t ∧ t = { s with i := t.i } ∧ t.i.toNat = nnn.toNat) ∧
    (∃ t, exec (.addI x) s = .next t ∧ t = { s with i := t.i } ∧
      t.i.toNat = (s.i.toNat + (s.reg x).toNat) % 65536) ∧
    (∃ t, exec (.ldF x) s = .next t ∧ t = { s with i := t.i } ∧
      t.i.toNat = (s.config.fontBase.toNat + 5 * ((s.reg x).toNat % 16)) % 65536)

/-- R143 (fault: decision D6): LD B writes the hundreds, tens and units digit of VX at I, I+1 and I+2 and nothing
else; I stays; past the end of memory it faults at the first address beyond and writes nothing. -/
def Obligations.BcdStoresThreeDigits : Prop :=
  ∀ (s : State) (x : Nibble), s.Inv →
    (s.i.toNat ≤ 4093 → ∃ t, exec (.ldB x) s = .next t ∧ t = { s with mem := t.mem } ∧
      (t.byteAt s.i.toNat).toNat = (s.reg x).toNat / 100 ∧
      (t.byteAt (s.i.toNat + 1)).toNat = (s.reg x).toNat / 10 % 10 ∧
      (t.byteAt (s.i.toNat + 2)).toNat = (s.reg x).toNat % 10 ∧
      ∀ a, ¬ (s.i.toNat ≤ a ∧ a ≤ s.i.toNat + 2) → t.byteAt a = s.byteAt a) ∧
    (s.i.toNat > 4093 → exec (.ldB x) s = .fault (.memoryOutOfRange (firstBad s.i)))

/-- R144 (fault: decision D6): LD [I],Vx stores V0 to VX at I upward, V0 lowest, and nothing else; under `memory` I
ends just past the last byte, otherwise it stays. -/
def Obligations.StoreRegistersCopiesV0ToVx : Prop :=
  ∀ (s : State) (x : Nibble), s.Inv →
    (s.i.toNat + x.toNat ≤ 4095 → ∃ t, exec (.storeRegs x) s = .next t ∧
      t = { s with mem := t.mem, i := t.i } ∧
      (∀ r : Nibble, r.toNat ≤ x.toNat → t.byteAt (s.i.toNat + r.toNat) = s.reg r) ∧
      (∀ a, ¬ (s.i.toNat ≤ a ∧ a ≤ s.i.toNat + x.toNat) → t.byteAt a = s.byteAt a) ∧
      t.i.toNat = (if s.quirks.memory then s.i.toNat + x.toNat + 1 else s.i.toNat)) ∧
    (s.i.toNat + x.toNat > 4095 → exec (.storeRegs x) s = .fault (.memoryOutOfRange (firstBad s.i)))

/-- R145 (fault: decision D6): LD Vx,[I] loads V0 to VX from I upward and no other register; under `memory` I ends
just past the last byte, otherwise it stays; memory is only read. -/
def Obligations.LoadRegistersCopiesIntoV0ToVx : Prop :=
  ∀ (s : State) (x : Nibble),
    (s.i.toNat + x.toNat ≤ 4095 → ∃ t, exec (.loadRegs x) s = .next t ∧
      t = { s with v := t.v, i := t.i } ∧ SameBytes s t ∧
      (∀ r : Nibble, r.toNat ≤ x.toNat → t.reg r = s.byteAt (s.i.toNat + r.toNat)) ∧
      (∀ r : Nibble, r.toNat > x.toNat → t.reg r = s.reg r) ∧
      t.i.toNat = (if s.quirks.memory then s.i.toNat + x.toNat + 1 else s.i.toNat)) ∧
    (s.i.toNat + x.toNat > 4095 → exec (.loadRegs x) s = .fault (.memoryOutOfRange (firstBad s.i)))

/-- R144, R145 (vector S6): store-registers followed by load-registers brings V0 to VX back from any start index that
keeps the transfer in memory, once I is where it was, whatever happened to the registers between. -/
def Obligations.StoreThenLoadRoundTrips : Prop :=
  ∀ (s : State) (x : Nibble), s.Inv → s.i.toNat + x.toNat ≤ 4095 →
    ∃ t, exec (.storeRegs x) s = .next t ∧
      ∀ u : State, u = { t with v := u.v, pc := u.pc, i := s.i } →
        ∃ w, exec (.loadRegs x) u = .next w ∧ (∀ r : Nibble, r.toNat ≤ x.toNat → w.reg r = s.reg r) ∧
          w.i = t.i ∧ w.mem = t.mem

/-- R62: a store is seen by the very next fetch: the words stored by LD [I],Vx are what a fetch at their address
reads, odd addresses included. -/
def Obligations.StoredBytesAreFetched : Prop :=
  ∀ (s : State) (x r r' : Nibble), s.Inv → s.i.toNat + x.toNat ≤ 4095 → r'.toNat = r.toNat + 1 →
    r'.toNat ≤ x.toNat →
    ∃ t, exec (.storeRegs x) s = .next t ∧
      fetch { t with pc := BitVec.ofNat 16 (s.i.toNat + r.toNat) } = .ok (wordOfBytes (s.reg r) (s.reg r'))

/-! ## Display (spec/43_display.md) -/

/-- R160: `set_pixel` XORs the bit into its cell and into no other, sets `dirty` iff the cell changed, and reports a
1 to 0 transition; applied twice it restores the cell, and exactly one of two calls with bit 1 reports. Besides DRW,
which calls it, only CLS sets `dirty`, and no instruction clears it. -/
def Obligations.SetPixelXorsItsCell : Prop :=
  (∀ (scr : Screen) (x : Fin 64) (y : Fin 32) (bit : Bool),
    let once := setPixel scr x y bit
    let twice := setPixel once.1 x y bit
    (∀ x' y', cell once.1.disp x' y' =
      if x' = x ∧ y' = y then (cell scr.disp x y ^^ bit) else cell scr.disp x' y') ∧
    once.1.dirty = (scr.dirty || decide (cell once.1.disp x y ≠ cell scr.disp x y)) ∧
    once.2 = (cell scr.disp x y && !cell once.1.disp x y) ∧
    twice.1.disp = scr.disp ∧ (once.2 ^^ twice.2) = bit) ∧
  (∀ (i : Instr) (s t : State), exec i s = .next t → (s.dirty = true → t.dirty = true) ∧
    (i ≠ .cls → (∀ x y n, i ≠ .drw x y n) → t.dirty = s.dirty))

/-- R164: from a start column at or past the width, `clipping` leaves the buffer unchanged and not dirtied and
reports no collision; without it the sprite wraps, so a start one width or one height further draws the same. -/
def Obligations.BlitPastTheEdgeClipsOrWraps : Prop :=
  ∀ (scr : Screen) (x0 y0 : Nat) (rows : List Byte),
    (x0 ≥ 64 ∨ y0 ≥ 32 → blit true scr x0 y0 rows = (scr, false)) ∧
    blit false scr (x0 + 64) y0 rows = blit false scr x0 y0 rows ∧
    blit false scr x0 (y0 + 32) rows = blit false scr x0 y0 rows

/-- R161: CLS turns every cell off and sets `dirty` unconditionally; VF and everything else stay. -/
def Obligations.ClsClearsAndMarksDirty : Prop :=
  ∀ s : State, ∃ t, exec .cls s = .next t ∧ t = { s with disp := t.disp, dirty := true } ∧
    (∀ x y, cell t.disp x y = false) ∧ (∀ r, t.reg r = s.reg r) ∧ SameBytes s t

/-- R162, R163, R164 (decisions D13, D28): what DRW does, for every height, either quirk and every start: each target
cell of a source bit holds its old value XOR the bit, every other cell its old value; VF is 1 exactly when a lit cell
got a 1 bit, else 0; `dirty` is set exactly when a written source bit is 1; nothing else changes. -/
def Obligations.DrwXorsTheSprite : Prop :=
  ∀ (s : State) (x y n : Nibble), (n.toNat = 0 ∨ s.i.toNat + n.toNat ≤ 4096) →
    let x0 := (s.reg x).toNat % 64
    let y0 := (s.reg y).toNat % 32
    let written : Nat → Nat → Fin 64 → Fin 32 → Prop := fun row col cx cy =>
      row < n.toNat ∧ col < 8 ∧ Lands s.quirks.clipping (x0 + col) (y0 + row) cx cy
    ∃ t, exec (.drw x y n) s = .next t ∧ t = { s with v := t.v, disp := t.disp, dirty := t.dirty } ∧
      SameRegsBut [vf] s t ∧ SameBytes s t ∧
      (∀ row col cx cy, written row col cx cy →
        cell t.disp cx cy = (cell s.disp cx cy ^^ spriteBit s row col)) ∧
      (∀ cx cy, (∀ row col, ¬ written row col cx cy) → cell t.disp cx cy = cell s.disp cx cy) ∧
      (t.reg vf = 0 ∨ t.reg vf = 1) ∧
      (t.reg vf = 1 ↔ ∃ row col cx cy, written row col cx cy ∧ cell s.disp cx cy = true ∧
        spriteBit s row col = true) ∧
      (t.dirty = true ↔ s.dirty = true ∨ ∃ row col cx cy, written row col cx cy ∧ spriteBit s row col = true)

/-- R163, from R160 and R164: drawing the same sprite twice at the same place restores the display, and the second
draw reports a collision exactly when a 1 bit of the sprite is written to a cell that was off at first (R163's own last
words leave the "off at first" out, log 12). Which cells are written rests on the start being reduced in either
clipping mode and read before VF is written (decisions D28, D13, log 9). VF may be put back between the draws, so that
the place is the same when X or Y is F. -/
def Obligations.DrawingTwiceRestoresTheDisplay : Prop :=
  ∀ (s t u : State) (x y n : Nibble), exec (.drw x y n) s = .next t →
    u = { t with v := u.v, dirty := u.dirty, pc := u.pc } → u.reg x = s.reg x → u.reg y = s.reg y →
    ∃ w, exec (.drw x y n) u = .next w ∧ w.disp = s.disp ∧
      (w.reg vf = 1 ↔ ∃ row col cx cy, row < n.toNat ∧ col < 8 ∧
        Lands s.quirks.clipping ((s.reg x).toNat % 64 + col) ((s.reg y).toNat % 32 + row) cx cy ∧
        spriteBit s row col = true ∧ cell s.disp cx cy = false)

/-- R167, R30 (decision D18): the read-out has 2048 cells, cell (x, y) at position y * 64 + x. -/
def Obligations.ReadoutIsRowMajor : Prop :=
  ∀ s : State, (readDisplay s).length = 2048 ∧
    ∀ (x : Fin 64) (y : Fin 32), (readDisplay s)[y.val * 64 + x.val]? = some (cell s.disp x y)

/-! ## Keypad and timers (spec/44_keypad.md, spec/45_timers.md) -/

/-- R184, R185 (decision D22): SKP and SKNP test the whole register value against the live set: a value of 16 or more
is never pressed; each is the other's complement; nothing but `pc` changes. -/
def Obligations.KeySkipsTestTheLiveSet : Prop :=
  ∀ (s : State) (x : Nibble),
    ((s.reg x).toNat < 16 ∧ s.keys.getLsbD (s.reg x).toNat = true →
      exec (.skp x) s = .next { s with pc := s.pc + 2 } ∧ exec (.sknp x) s = .next s) ∧
    (¬ ((s.reg x).toNat < 16 ∧ s.keys.getLsbD (s.reg x).toNat = true) →
      exec (.skp x) s = .next s ∧ exec (.sknp x) s = .next { s with pc := s.pc + 2 })

/-- R186, R183 (decision D14): with a released key LD Vx,K loads the code of one of them, for whatever the free choice
is (log 4), and goes on; with none it only takes `pc` back by 2. -/
def Obligations.WaitForKeyLoadsAReleasedKeyOrWaits : Prop :=
  ∀ (s : State) (x : Nibble),
    let rel : Nibble → Prop := fun k => s.lastKeys.getLsbD k.toNat = true ∧ s.keys.getLsbD k.toNat = false
    ((∃ k, rel k) → ∃ t k, exec (.ldKey x) s = .next t ∧ rel k ∧ (t.reg x).toNat = k.toNat ∧
      t = { s with v := t.v } ∧ SameRegsBut [x] s t ∧ SameBytes s t) ∧
    ((¬ ∃ k, rel k) → exec (.ldKey x) s = .next { s with pc := s.pc - 2 })

/-- R183: what LD Vx,K sees: after a completed cycle and any operations of the host but `reset`, a key counts as
released exactly when it was in the live set at the end of that cycle and is not in it now. -/
def Obligations.ReleasedAreTheNetReleasesSinceTheLastCycle : Prop :=
  ∀ (s t : State) (ops : List HostOp) (k : Nibble), cycle s = .next t → (∀ op ∈ ops, ∀ q, op ≠ .reset q) →
    let now := ops.foldl (fun u op => applyHost op u) t
    ((released now).getLsbD k.toNat = true ↔ t.keys.getLsbD k.toNat = true ∧ now.keys.getLsbD k.toNat = false)

/-- R186(a), (e), R250: with no release a wait goes on for as many cycles as the host calls, each of them complete, and
changes nothing but the snapshot (and the model's own fields, logs 2 and 3). -/
def Obligations.WaitGoesOnUntilARelease : Prop :=
  ∀ (s : State) (x : Nibble) (k : Nat), s.schedule = [] → s.faulted = false → s.pc.toNat ≤ 4094 →
    decode (s.wordAt s.pc.toNat) = .ok (.ldKey x) → released s = 0 →
    ∃ t, runSteps k s = .next t ∧
      t = { s with lastKeys := t.lastKeys, report := t.report, cycleNo := t.cycleNo }

/-- R202, R203: LD DT,Vx and LD ST,Vx replace their timer by VX and change nothing else. -/
def Obligations.TimerWritesReplaceTheCount : Prop :=
  ∀ (s : State) (x : Nibble),
    exec (.ldDt x) s = .next { s with dt := s.reg x } ∧ exec (.ldSt x) s = .next { s with st := s.reg x }

/-- R200 (decision D16), R29: a tick takes one from each timer, stopping at zero, and changes nothing else; after n
ticks a timer shows n less, or zero. -/
def Obligations.TicksCountBothTimersDown : Prop :=
  ∀ (s : State) (n : Nat),
    let t := (fun u => applyHost .tick u)^[n] s
    t.dt.toNat = s.dt.toNat - n ∧ t.st.toNat = s.st.toNat - n ∧ t = { s with dt := t.dt, st := t.st }

/-! ## The host (spec/00_scope.md R9, R10, spec/70_reset_and_hazards.md) -/

/-- R180, R181 (decision D22): press and release add and remove one key and change nothing else. -/
def Obligations.KeyMutatorsAddAndRemoveOneKey : Prop :=
  ∀ (s : State) (k : Nibble),
    (∃ t, applyHost (.keyPress k) s = t ∧ t = { s with keys := t.keys } ∧
      ∀ k' : Nibble, (t.keys.getLsbD k'.toNat = true ↔ k' = k ∨ s.keys.getLsbD k'.toNat = true)) ∧
    (∃ t, applyHost (.keyRelease k) s = t ∧ t = { s with keys := t.keys } ∧
      ∀ k' : Nibble, (t.keys.getLsbD k'.toNat = true ↔ k' ≠ k ∧ s.keys.getLsbD k'.toNat = true))

/-- R166: `clear_dirty` clears `dirty` and changes nothing else, and only the host clears the flag: no cycle does,
whatever instruction it runs. -/
def Obligations.ClearDirtyChangesNothingElse : Prop :=
  (∀ s : State, applyHost .clearDirty s = { s with dirty := false }) ∧
  (∀ s t : State, cycle s = .next t → s.dirty = true → t.dirty = true)

/-- R10: the host writes the live key set, `dirty` (to clear it), the timers (downward, by `tick`) and memory (by
`load`), and nothing else after reset but its own report and schedule. -/
def Obligations.HostWritesOnlyItsOwnState : Prop :=
  ∀ (op : HostOp) (s : State), (∀ q, op ≠ .reset q) →
    let t := applyHost op s
    t = { s with mem := t.mem, dirty := t.dirty, dt := t.dt, st := t.st, keys := t.keys, report := t.report } ∧
    ((∀ k, op ≠ .keyPress k) → (∀ k, op ≠ .keyRelease k) → t.keys = s.keys) ∧
    (op ≠ .clearDirty → t.dirty = s.dirty) ∧ (t.dirty = s.dirty ∨ t.dirty = false) ∧
    (op ≠ .tick → t.dt = s.dt ∧ t.st = s.st) ∧ t.dt.toNat ≤ s.dt.toNat ∧ t.st.toNat ≤ s.st.toNat ∧
    ((∀ bytes, op ≠ .load bytes) → t.mem = s.mem)

/-- R243, R244 (decisions D1, D17): a load that fits the capacity after PROGRAM_BASE copies its bytes there and changes
nothing else; one that does not changes nothing; the result is reported. -/
def Obligations.LoadCopiesTheImageOrNothing : Prop :=
  ∀ (s : State) (bytes : List Byte), s.Inv →
    let base := s.config.programBase.toNat
    let t := applyHost (.load bytes) s
    (bytes.length ≤ 4096 - base → t = { s with mem := t.mem, report := .loaded } ∧
      (∀ k, k < bytes.length → some (t.byteAt (base + k)) = bytes[k]?) ∧
      (∀ a, ¬ (base ≤ a ∧ a < base + bytes.length) → t.byteAt a = s.byteAt a)) ∧
    (bytes.length > 4096 - base → t = { s with report := .loadTooLarge bytes.length })

/-- R240, R40 (decision D11, the spec's own choice; log 6): what `reset(q)` leaves, from any state: every register,
timer, cell and key at 0, `pc` at PROGRAM_BASE, the font in place and every other byte 0, the quirks of the argument,
the fault mark cleared. -/
def Obligations.ResetEstablishesTheStatedState : Prop :=
  ∀ (s : State) (q : Quirks), s.config.valid = true →
    let t := applyHost (.reset q) s
    (∀ r, t.reg r = 0) ∧ t.i = 0 ∧ t.pc = s.config.programBase ∧ t.stack = [] ∧
    (∀ x y, cell t.disp x y = false) ∧ t.dirty = false ∧ t.dt = 0 ∧ t.st = 0 ∧ t.keys = 0 ∧ t.lastKeys = 0 ∧
    t.quirks = q ∧ t.faulted = false ∧ t.config = s.config ∧
    (∀ (g : Fin 16) (k : Fin 5), t.byteAt (s.config.fontBase.toNat + 5 * g.val + k.val) = s.config.fontData[g][k]) ∧
    (∀ a, ¬ (s.config.fontBase.toNat ≤ a ∧ a < s.config.fontBase.toNat + 80) → t.byteAt a = 0)

/-- R38, R39(c): the parameters never change, and the quirks change only by a `reset` of the host. -/
def Obligations.QuirksChangeOnlyByReset : Prop :=
  ∀ s t : State, step s = .next t → t.config = s.config ∧
    (t.quirks ≠ s.quirks → ∃ q rest, s.schedule = .host (.reset q) :: rest ∧ t.quirks = q)

/-! ## Invariants and runs -/

/-- The reset state meets the invariant, with the default parameters and with any that meet R7's constraint. The clause
that memory is in canonical form is the model's own (log 8); the reset values are the spec's choice D11 (log 6) and the
default parameters its choices D1, D2, D3 and D8 (log 5). -/
def Obligations.ResetMeetsTheInvariant : Prop :=
  State.reset.Inv ∧ ∀ (c : Config) (q : Quirks), c.valid = true → (State.resetWith c q).Inv

/-- R7, R27, R56, R14: every step, of the core or of the host, keeps the invariant: the parameters stay valid, memory
stays in its canonical form with no byte outside 0 to 4095, and a stack of finite depth is never over full. -/
def Obligations.EveryStepKeepsTheInvariant : Prop :=
  ∀ s t : State, s.Inv → step s = .next t → t.Inv

/-- The same over any sequence of operations the host can apply, faults between them included (R9, R211). -/
def Obligations.EverySequenceOfOperationsKeepsTheInvariant : Prop :=
  ∀ (es : List Event) (s t : State), s.Inv → performAll es s = some t → t.Inv

/-- R246 (decision D23): a final state stays final under any number of cycles, which change nothing but the snapshot
(and the model's own fields, logs 2 and 3). -/
def Obligations.FinalStateStaysFinal : Prop :=
  ∀ (s : State) (A : Addr12) (k : Nat), s.OnlyCycles → s.FinalAt A →
    ∃ t, runSteps k s = .next t ∧ t.FinalAt A ∧
      t = { s with lastKeys := t.lastKeys, report := t.report, cycleNo := t.cycleNo }

/-- R246, R255: from every state, after some number k of steps, at most 2048, which together move `pc` by 2k and change
nothing else of the machine (as k unknown opcodes do), a state is reached whose next step reports no unknown opcode: an
endless run of unknown opcodes does not exist. (An unknown opcode's effect is decision D10, the fault that ends the run at
the end of memory D6, the end of a run in R246 D23; `report` and `cycleNo` are the model's own, logs 2 and 3.) -/
def Obligations.UnknownOpcodesDoNotRunForEver : Prop :=
  ∀ s : State, s.OnlyCycles →
    ∃ k t, k ≤ 2048 ∧ runSteps k s = .next t ∧ t.pc.toNat = s.pc.toNat + 2 * k ∧
      t = { s with pc := t.pc, lastKeys := t.lastKeys, report := t.report, cycleNo := t.cycleNo } ∧
      ¬ ∃ u op, step t = .next u ∧ u.report = .unknownOpcode op
end

