-- ==== Sys2Proof/Laws/Decode.lean ====
section
/-! SUPPORT. The fields of a word put together from fields, and of a word put together from bytes. -/

namespace Sys2Proof

@[simp] theorem fieldT_wordNNN (t : Nibble) (nnn : Addr12) : fieldT (wordNNN t nnn) = t := by
  apply BitVec.eq_of_getLsbD_eq; intro i hi
  simp only [fieldT, wordNNN, zext16, BitVec.getLsbD_extractLsb',
    BitVec.getLsbD_or, BitVec.getLsbD_shiftLeft, BitVec.getLsbD_setWidth]
  interval_cases i <;> simp
@[simp] theorem fieldNNN_wordNNN (t : Nibble) (nnn : Addr12) : fieldNNN (wordNNN t nnn) = nnn := by
  apply BitVec.eq_of_getLsbD_eq; intro i hi
  simp only [fieldNNN, wordNNN, zext16, BitVec.getLsbD_extractLsb',
    BitVec.getLsbD_or, BitVec.getLsbD_shiftLeft, BitVec.getLsbD_setWidth]
  interval_cases i <;> simp
@[simp] theorem fieldX_wordNNN (t : Nibble) (nnn : Addr12) : fieldX (wordNNN t nnn) = topNibble nnn := by
  apply BitVec.eq_of_getLsbD_eq; intro i hi
  simp only [fieldX, topNibble, wordNNN, zext16, BitVec.getLsbD_extractLsb',
    BitVec.getLsbD_or, BitVec.getLsbD_shiftLeft, BitVec.getLsbD_setWidth]
  interval_cases i <;> simp
@[simp] theorem fieldT_wordXNN (t x : Nibble) (nn : Byte) : fieldT (wordXNN t x nn) = t := by
  apply BitVec.eq_of_getLsbD_eq; intro i hi
  simp only [fieldT, wordXNN, zext16, BitVec.getLsbD_extractLsb',
    BitVec.getLsbD_or, BitVec.getLsbD_shiftLeft, BitVec.getLsbD_setWidth]
  interval_cases i <;> simp
@[simp] theorem fieldX_wordXNN (t x : Nibble) (nn : Byte) : fieldX (wordXNN t x nn) = x := by
  apply BitVec.eq_of_getLsbD_eq; intro i hi
  simp only [fieldX, wordXNN, zext16, BitVec.getLsbD_extractLsb',
    BitVec.getLsbD_or, BitVec.getLsbD_shiftLeft, BitVec.getLsbD_setWidth]
  interval_cases i <;> simp
@[simp] theorem fieldNN_wordXNN (t x : Nibble) (nn : Byte) : fieldNN (wordXNN t x nn) = nn := by
  apply BitVec.eq_of_getLsbD_eq; intro i hi
  simp only [fieldNN, wordXNN, zext16, BitVec.getLsbD_extractLsb',
    BitVec.getLsbD_or, BitVec.getLsbD_shiftLeft, BitVec.getLsbD_setWidth]
  interval_cases i <;> simp
@[simp] theorem fieldT_wordXYN (t x y n : Nibble) : fieldT (wordXYN t x y n) = t := by
  apply BitVec.eq_of_getLsbD_eq; intro i hi
  simp only [fieldT, wordXYN, zext16, BitVec.getLsbD_extractLsb',
    BitVec.getLsbD_or, BitVec.getLsbD_shiftLeft, BitVec.getLsbD_setWidth]
  interval_cases i <;> simp
@[simp] theorem fieldX_wordXYN (t x y n : Nibble) : fieldX (wordXYN t x y n) = x := by
  apply BitVec.eq_of_getLsbD_eq; intro i hi
  simp only [fieldX, wordXYN, zext16, BitVec.getLsbD_extractLsb',
    BitVec.getLsbD_or, BitVec.getLsbD_shiftLeft, BitVec.getLsbD_setWidth]
  interval_cases i <;> simp
@[simp] theorem fieldY_wordXYN (t x y n : Nibble) : fieldY (wordXYN t x y n) = y := by
  apply BitVec.eq_of_getLsbD_eq; intro i hi
  simp only [fieldY, wordXYN, zext16, BitVec.getLsbD_extractLsb',
    BitVec.getLsbD_or, BitVec.getLsbD_shiftLeft, BitVec.getLsbD_setWidth]
  interval_cases i <;> simp
@[simp] theorem fieldN_wordXYN (t x y n : Nibble) : fieldN (wordXYN t x y n) = n := by
  apply BitVec.eq_of_getLsbD_eq; intro i hi
  simp only [fieldN, wordXYN, zext16, BitVec.getLsbD_extractLsb',
    BitVec.getLsbD_or, BitVec.getLsbD_shiftLeft, BitVec.getLsbD_setWidth]
  interval_cases i <;> simp
/-- A word is its four nibbles. -/
theorem wordXYN_fields (op : Word) : wordXYN (fieldT op) (fieldX op) (fieldY op) (fieldN op) = op := by
  apply BitVec.eq_of_getLsbD_eq; intro i hi
  simp only [fieldT, fieldX, fieldY, fieldN, wordXYN, zext16, BitVec.getLsbD_extractLsb',
    BitVec.getLsbD_or, BitVec.getLsbD_shiftLeft, BitVec.getLsbD_setWidth]
  interval_cases i <;> simp

/-- A word is T, X and NN. -/
theorem wordXNN_fields (op : Word) : wordXNN (fieldT op) (fieldX op) (fieldNN op) = op := by
  apply BitVec.eq_of_getLsbD_eq; intro i hi
  simp only [fieldT, fieldX, fieldNN, wordXNN, zext16, BitVec.getLsbD_extractLsb',
    BitVec.getLsbD_or, BitVec.getLsbD_shiftLeft, BitVec.getLsbD_setWidth]
  interval_cases i <;> simp

/-- A word is T and NNN. -/
theorem wordNNN_fields (op : Word) : wordNNN (fieldT op) (fieldNNN op) = op := by
  apply BitVec.eq_of_getLsbD_eq; intro i hi
  simp only [fieldT, fieldNNN, wordNNN, zext16, BitVec.getLsbD_extractLsb',
    BitVec.getLsbD_or, BitVec.getLsbD_shiftLeft, BitVec.getLsbD_setWidth]
  interval_cases i <;> simp

/-- The two bytes of a word put together are the word. -/
theorem wordOfBytes_bytesOfWord (op : Word) :
    wordOfBytes (op.extractLsb' 8 8) (op.extractLsb' 0 8) = op := by
  apply BitVec.eq_of_getLsbD_eq; intro i hi
  simp only [wordOfBytes, zext16, BitVec.getLsbD_extractLsb',
    BitVec.getLsbD_or, BitVec.getLsbD_shiftLeft, BitVec.getLsbD_setWidth]
  interval_cases i <;> simp

/-- The word as a number: the first byte times 256 plus the second (spec/30_encoding.md R72). -/
theorem wordOfBytes_toNat (hi lo : Byte) : (wordOfBytes hi lo).toNat = hi.toNat * 256 + lo.toNat := by
  have h1 := hi.isLt
  have h2 := lo.isLt
  have h3 := Nat.shiftLeft_add_eq_or_of_lt (i := 8) (b := lo.toNat) h2 hi.toNat
  simp only [wordOfBytes, zext16, BitVec.toNat_or, BitVec.toNat_shiftLeft, BitVec.toNat_setWidth]
  rw [Nat.mod_eq_of_lt (by omega : hi.toNat < 2 ^ 16), Nat.mod_eq_of_lt (by omega : lo.toNat < 2 ^ 16),
    Nat.mod_eq_of_lt (by rw [Nat.shiftLeft_eq]; omega), ← h3, Nat.shiftLeft_eq]

end Sys2Proof
end

