-- ==== Sys2Proof/Laws/Memory.lean ====
section
/-! SUPPORT. The laws of memory: a read after a write, and that every memory operation keeps the canonical form. -/

namespace Sys2Proof.Machine

variable {c : Config}

theorem Memory.wfFrom_mono {lo lo' : Nat} (h : lo' ≤ lo) :
    ∀ {m : Memory}, Memory.wfFrom c lo m = true → Memory.wfFrom c lo' m = true
  | [], _ => rfl
  | (a, b) :: rest, hw => by
    simp only [Memory.wfFrom, Bool.and_eq_true, decide_eq_true_eq] at hw ⊢
    exact ⟨⟨⟨by omega, hw.1.1.2⟩, hw.1.2⟩, hw.2⟩

/-- Below the first cell every byte reads as its reset contents. -/
theorem Memory.read_below : ∀ {m : Memory} {lo a : Nat}, Memory.wfFrom c lo m = true → a < lo →
    Memory.read c m a = resetByte c a
  | [], _, _, _, _ => rfl
  | (a', b') :: rest, lo, a, hw, ha => by
    simp only [Memory.wfFrom, Bool.and_eq_true, decide_eq_true_eq] at hw
    have hne : a ≠ a' := by omega
    rw [Memory.read, if_neg hne]
    exact Memory.read_below hw.2 (by omega)

theorem Memory.read_cellOf (a b x : _) (rest : Memory) (h : a = x → Memory.read c rest a = resetByte c a) :
    Memory.read c (cellOf c a b ++ rest) x = if x = a then b else Memory.read c rest x := by
  unfold cellOf
  by_cases hb : b = resetByte c a
  · by_cases hx : x = a
    · subst hx
      simp [hb, h rfl]
    · simp [hb, hx]
  · simp [hb, Memory.read]

/-- A read after a write: the byte written at its address, the old byte everywhere else. -/
theorem Memory.read_writeFrom : ∀ {m : Memory} {lo : Nat} (_ : Memory.wfFrom c lo m = true) (a : Nat) (b : Byte)
    (x : Nat), Memory.read c (Memory.write c m a b) x = if x = a then b else Memory.read c m x
  | [], _, _, a, b, x => by
    have := Memory.read_cellOf (c := c) a b x [] (fun _ => rfl)
    simpa [Memory.write, Memory.read] using this
  | (a', b') :: rest, lo, hw, a, b, x => by
    have hw' := hw
    simp only [Memory.wfFrom, Bool.and_eq_true, decide_eq_true_eq] at hw
    rw [Memory.write]
    by_cases h1 : a < a'
    · rw [if_pos h1, Memory.read_cellOf]
      intro _
      have : Memory.wfFrom c a' ((a', b') :: rest) = true := by
        simp only [Memory.wfFrom, Bool.and_eq_true, decide_eq_true_eq]
        exact ⟨⟨⟨by omega, hw.1.1.2⟩, hw.1.2⟩, hw.2⟩
      exact Memory.read_below this h1
    · rw [if_neg h1]
      by_cases h2 : a = a'
      · subst h2
        rw [if_pos rfl, Memory.read_cellOf _ _ _ _ (fun _ => Memory.read_below hw.2 (by omega))]
        by_cases hx : x = a
        · simp [hx]
        · simp [hx, Memory.read]
      · rw [if_neg h2, Memory.read, Memory.read, Memory.read_writeFrom hw.2]
        by_cases hx : x = a'
        · have : x ≠ a := fun h => h2 (h ▸ hx)
          simp [hx, show a' ≠ a from fun h => h2 h.symm]
        · simp [hx]

theorem Memory.wfFrom_cellOf_append {lo a : Nat} {b : Byte} {rest : Memory} (hlo : lo ≤ a) (ha : a < 4096)
    (hr : Memory.wfFrom c (a + 1) rest = true) : Memory.wfFrom c lo (cellOf c a b ++ rest) = true := by
  unfold cellOf
  by_cases hb : b = resetByte c a
  · simpa [hb] using Memory.wfFrom_mono (by omega) hr
  · simp [hb, Memory.wfFrom, hlo, ha, hr]

theorem Memory.wfFrom_write : ∀ {m : Memory} {lo a : Nat} {b : Byte}, Memory.wfFrom c lo m = true → lo ≤ a →
    a < 4096 → Memory.wfFrom c lo (Memory.write c m a b) = true
  | [], lo, a, b, _, hlo, ha => by
    simpa [Memory.write] using Memory.wfFrom_cellOf_append (c := c) (b := b) (rest := []) hlo ha rfl
  | (a', b') :: rest, lo, a, b, hw, hlo, ha => by
    have hw' := hw
    simp only [Memory.wfFrom, Bool.and_eq_true, decide_eq_true_eq] at hw
    rw [Memory.write]
    by_cases h1 : a < a'
    · rw [if_pos h1]
      refine Memory.wfFrom_cellOf_append hlo ha ?_
      simp only [Memory.wfFrom, Bool.and_eq_true, decide_eq_true_eq]
      exact ⟨⟨⟨by omega, hw.1.1.2⟩, hw.1.2⟩, hw.2⟩
    · rw [if_neg h1]
      by_cases h2 : a = a'
      · subst h2
        rw [if_pos rfl]
        exact Memory.wfFrom_cellOf_append hlo ha hw.2
      · rw [if_neg h2]
        simp only [Memory.wfFrom, Bool.and_eq_true, decide_eq_true_eq]
        exact ⟨hw.1, Memory.wfFrom_write hw.2 (by omega) ha⟩

/-- Reset memory is in canonical form. -/
theorem Memory.wf_nil : Memory.wf c [] = true := rfl

/-- A write inside memory keeps the canonical form. -/
theorem Memory.wf_write {m : Memory} {a : Nat} {b : Byte} (h : Memory.wf c m = true) (ha : a < 4096) :
    Memory.wf c (Memory.write c m a b) = true := Memory.wfFrom_write h (Nat.zero_le _) ha

theorem Memory.read_write {m : Memory} (h : Memory.wf c m = true) (a : Nat) (b : Byte) (x : Nat) :
    Memory.read c (Memory.write c m a b) x = if x = a then b else Memory.read c m x := Memory.read_writeFrom h a b x

/-- A run of writes inside memory keeps the canonical form. -/
theorem Memory.wf_writeRun : ∀ {bs : List Byte} {m : Memory} {a : Nat}, Memory.wf c m = true →
    a + bs.length ≤ 4096 → Memory.wf c (Memory.writeRun c m a bs) = true
  | [], _, _, h, _ => h
  | b :: bs, m, a, h, ha => by
    simp only [List.length_cons] at ha
    have hw : Memory.wf c (Memory.write c m a b) = true := Memory.wf_write h (by omega)
    exact Memory.wf_writeRun (bs := bs) hw (by omega)

/-- A read after a run of writes: the bytes of the run inside it, the old bytes outside. -/
theorem Memory.read_writeRun : ∀ {bs : List Byte} {m : Memory} {a : Nat}, Memory.wf c m = true →
    a + bs.length ≤ 4096 → ∀ x, Memory.read c (Memory.writeRun c m a bs) x =
      if a ≤ x ∧ x < a + bs.length then bs.getD (x - a) 0 else Memory.read c m x
  | [], m, a, _, _, x => by
    have : ¬ (a ≤ x ∧ x < a + ([] : List Byte).length) := by simp only [List.length_nil]; omega
    rw [if_neg this, Memory.writeRun]
  | b :: bs, m, a, h, ha, x => by
    simp only [List.length_cons] at ha ⊢
    rw [Memory.writeRun, Memory.read_writeRun (Memory.wf_write h (by omega)) (by omega), Memory.read_write h]
    by_cases h1 : x = a
    · subst h1
      have h2 : ¬ (x + 1 ≤ x ∧ x < x + 1 + bs.length) := by omega
      have h3 : x ≤ x ∧ x < x + (bs.length + 1) := by omega
      rw [if_neg h2, if_pos h3, if_pos rfl, Nat.sub_self, List.getD_cons_zero]
    · by_cases h4 : a + 1 ≤ x ∧ x < a + 1 + bs.length
      · have h5 : a ≤ x ∧ x < a + (bs.length + 1) := by omega
        have h6 : x - a = (x - (a + 1)) + 1 := by omega
        rw [if_pos h4, if_pos h5, h6, List.getD_cons_succ]
      · have h5 : ¬ (a ≤ x ∧ x < a + (bs.length + 1)) := by omega
        rw [if_neg h4, if_neg h5, if_neg h1]

/-- Memories in canonical form that read the same are the same list. -/
theorem Memory.eq_of_readFrom : ∀ {m m' : Memory} {lo : Nat}, Memory.wfFrom c lo m = true →
    Memory.wfFrom c lo m' = true → (∀ a, Memory.read c m a = Memory.read c m' a) → m = m'
  | [], [], _, _, _, _ => rfl
  | [], (a, b) :: rest, _, _, hw, h => by
    have := h a
    simp only [Memory.wfFrom, Bool.and_eq_true, decide_eq_true_eq] at hw
    simp only [Memory.read, if_true] at this
    exact absurd this.symm hw.1.2
  | (a, b) :: rest, [], _, hw, _, h => by
    have := h a
    simp only [Memory.wfFrom, Bool.and_eq_true, decide_eq_true_eq] at hw
    simp only [Memory.read, if_true] at this
    exact absurd this hw.1.2
  | (a, b) :: rest, (a', b') :: rest', lo, hw, hw', h => by
    simp only [Memory.wfFrom, Bool.and_eq_true, decide_eq_true_eq] at hw hw'
    have haa : a = a' := by
      rcases Nat.lt_trichotomy a a' with hlt | heq | hgt
      · have h1 := h a
        have h2 : Memory.read c ((a', b') :: rest') a = resetByte c a := by
          rw [Memory.read, if_neg (by omega)]
          exact Memory.read_below hw'.2 (by omega)
        rw [h2, Memory.read, if_pos rfl] at h1
        exact absurd h1 hw.1.2
      · exact heq
      · have h1 := h a'
        have h2 : Memory.read c ((a, b) :: rest) a' = resetByte c a' := by
          rw [Memory.read, if_neg (by omega)]
          exact Memory.read_below hw.2 (by omega)
        rw [h2, Memory.read, if_pos rfl] at h1
        exact absurd h1.symm hw'.1.2
    subst haa
    have hb : b = b' := by simpa [Memory.read] using h a
    subst hb
    have hr : rest = rest' := by
      refine Memory.eq_of_readFrom hw.2 hw'.2 fun x => ?_
      by_cases hx : x < a + 1
      · rw [Memory.read_below hw.2 hx, Memory.read_below hw'.2 hx]
      · have := h x
        rwa [Memory.read, Memory.read, if_neg (by omega), if_neg (by omega)] at this
    rw [hr]

theorem Memory.eq_of_read {m m' : Memory} (h : Memory.wf c m = true) (h' : Memory.wf c m' = true)
    (hr : ∀ a, Memory.read c m a = Memory.read c m' a) : m = m' := Memory.eq_of_readFrom h h' hr

end Sys2Proof.Machine
end

