-- ==== Sys2Proof/Laws/State.lean ====
section
/-! SUPPORT. One lemma per field per update of the state: what the update leaves there. No later proof unfolds a record update. -/

namespace Sys2Proof.Machine

/-! `setRegs` -/
@[simp] theorem State.setRegs_v (s : State) (v : Vector Byte 16) : (s.setRegs v).v = v := rfl
@[simp] theorem State.setRegs_i (s : State) (v : Vector Byte 16) : (s.setRegs v).i = s.i := rfl
@[simp] theorem State.setRegs_pc (s : State) (v : Vector Byte 16) : (s.setRegs v).pc = s.pc := rfl
@[simp] theorem State.setRegs_stack (s : State) (v : Vector Byte 16) : (s.setRegs v).stack = s.stack := rfl
@[simp] theorem State.setRegs_mem (s : State) (v : Vector Byte 16) : (s.setRegs v).mem = s.mem := rfl
@[simp] theorem State.setRegs_disp (s : State) (v : Vector Byte 16) : (s.setRegs v).disp = s.disp := rfl
@[simp] theorem State.setRegs_dirty (s : State) (v : Vector Byte 16) : (s.setRegs v).dirty = s.dirty := rfl
@[simp] theorem State.setRegs_dt (s : State) (v : Vector Byte 16) : (s.setRegs v).dt = s.dt := rfl
@[simp] theorem State.setRegs_st (s : State) (v : Vector Byte 16) : (s.setRegs v).st = s.st := rfl
@[simp] theorem State.setRegs_keys (s : State) (v : Vector Byte 16) : (s.setRegs v).keys = s.keys := rfl
@[simp] theorem State.setRegs_lastKeys (s : State) (v : Vector Byte 16) : (s.setRegs v).lastKeys = s.lastKeys := rfl
@[simp] theorem State.setRegs_quirks (s : State) (v : Vector Byte 16) : (s.setRegs v).quirks = s.quirks := rfl
@[simp] theorem State.setRegs_faulted (s : State) (v : Vector Byte 16) : (s.setRegs v).faulted = s.faulted := rfl
@[simp] theorem State.setRegs_config (s : State) (v : Vector Byte 16) : (s.setRegs v).config = s.config := rfl
@[simp] theorem State.setRegs_cycleNo (s : State) (v : Vector Byte 16) : (s.setRegs v).cycleNo = s.cycleNo := rfl
@[simp] theorem State.setRegs_report (s : State) (v : Vector Byte 16) : (s.setRegs v).report = s.report := rfl
@[simp] theorem State.setRegs_schedule (s : State) (v : Vector Byte 16) : (s.setRegs v).schedule = s.schedule := rfl

/-! `setI` -/
@[simp] theorem State.setI_v (s : State) (w : Word) : (s.setI w).v = s.v := rfl
@[simp] theorem State.setI_i (s : State) (w : Word) : (s.setI w).i = w := rfl
@[simp] theorem State.setI_pc (s : State) (w : Word) : (s.setI w).pc = s.pc := rfl
@[simp] theorem State.setI_stack (s : State) (w : Word) : (s.setI w).stack = s.stack := rfl
@[simp] theorem State.setI_mem (s : State) (w : Word) : (s.setI w).mem = s.mem := rfl
@[simp] theorem State.setI_disp (s : State) (w : Word) : (s.setI w).disp = s.disp := rfl
@[simp] theorem State.setI_dirty (s : State) (w : Word) : (s.setI w).dirty = s.dirty := rfl
@[simp] theorem State.setI_dt (s : State) (w : Word) : (s.setI w).dt = s.dt := rfl
@[simp] theorem State.setI_st (s : State) (w : Word) : (s.setI w).st = s.st := rfl
@[simp] theorem State.setI_keys (s : State) (w : Word) : (s.setI w).keys = s.keys := rfl
@[simp] theorem State.setI_lastKeys (s : State) (w : Word) : (s.setI w).lastKeys = s.lastKeys := rfl
@[simp] theorem State.setI_quirks (s : State) (w : Word) : (s.setI w).quirks = s.quirks := rfl
@[simp] theorem State.setI_faulted (s : State) (w : Word) : (s.setI w).faulted = s.faulted := rfl
@[simp] theorem State.setI_config (s : State) (w : Word) : (s.setI w).config = s.config := rfl
@[simp] theorem State.setI_cycleNo (s : State) (w : Word) : (s.setI w).cycleNo = s.cycleNo := rfl
@[simp] theorem State.setI_report (s : State) (w : Word) : (s.setI w).report = s.report := rfl
@[simp] theorem State.setI_schedule (s : State) (w : Word) : (s.setI w).schedule = s.schedule := rfl

/-! `setPc` -/
@[simp] theorem State.setPc_v (s : State) (w : Word) : (s.setPc w).v = s.v := rfl
@[simp] theorem State.setPc_i (s : State) (w : Word) : (s.setPc w).i = s.i := rfl
@[simp] theorem State.setPc_pc (s : State) (w : Word) : (s.setPc w).pc = w := rfl
@[simp] theorem State.setPc_stack (s : State) (w : Word) : (s.setPc w).stack = s.stack := rfl
@[simp] theorem State.setPc_mem (s : State) (w : Word) : (s.setPc w).mem = s.mem := rfl
@[simp] theorem State.setPc_disp (s : State) (w : Word) : (s.setPc w).disp = s.disp := rfl
@[simp] theorem State.setPc_dirty (s : State) (w : Word) : (s.setPc w).dirty = s.dirty := rfl
@[simp] theorem State.setPc_dt (s : State) (w : Word) : (s.setPc w).dt = s.dt := rfl
@[simp] theorem State.setPc_st (s : State) (w : Word) : (s.setPc w).st = s.st := rfl
@[simp] theorem State.setPc_keys (s : State) (w : Word) : (s.setPc w).keys = s.keys := rfl
@[simp] theorem State.setPc_lastKeys (s : State) (w : Word) : (s.setPc w).lastKeys = s.lastKeys := rfl
@[simp] theorem State.setPc_quirks (s : State) (w : Word) : (s.setPc w).quirks = s.quirks := rfl
@[simp] theorem State.setPc_faulted (s : State) (w : Word) : (s.setPc w).faulted = s.faulted := rfl
@[simp] theorem State.setPc_config (s : State) (w : Word) : (s.setPc w).config = s.config := rfl
@[simp] theorem State.setPc_cycleNo (s : State) (w : Word) : (s.setPc w).cycleNo = s.cycleNo := rfl
@[simp] theorem State.setPc_report (s : State) (w : Word) : (s.setPc w).report = s.report := rfl
@[simp] theorem State.setPc_schedule (s : State) (w : Word) : (s.setPc w).schedule = s.schedule := rfl

/-! `setStack` -/
@[simp] theorem State.setStack_v (s : State) (l : List Word) : (s.setStack l).v = s.v := rfl
@[simp] theorem State.setStack_i (s : State) (l : List Word) : (s.setStack l).i = s.i := rfl
@[simp] theorem State.setStack_pc (s : State) (l : List Word) : (s.setStack l).pc = s.pc := rfl
@[simp] theorem State.setStack_stack (s : State) (l : List Word) : (s.setStack l).stack = l := rfl
@[simp] theorem State.setStack_mem (s : State) (l : List Word) : (s.setStack l).mem = s.mem := rfl
@[simp] theorem State.setStack_disp (s : State) (l : List Word) : (s.setStack l).disp = s.disp := rfl
@[simp] theorem State.setStack_dirty (s : State) (l : List Word) : (s.setStack l).dirty = s.dirty := rfl
@[simp] theorem State.setStack_dt (s : State) (l : List Word) : (s.setStack l).dt = s.dt := rfl
@[simp] theorem State.setStack_st (s : State) (l : List Word) : (s.setStack l).st = s.st := rfl
@[simp] theorem State.setStack_keys (s : State) (l : List Word) : (s.setStack l).keys = s.keys := rfl
@[simp] theorem State.setStack_lastKeys (s : State) (l : List Word) : (s.setStack l).lastKeys = s.lastKeys := rfl
@[simp] theorem State.setStack_quirks (s : State) (l : List Word) : (s.setStack l).quirks = s.quirks := rfl
@[simp] theorem State.setStack_faulted (s : State) (l : List Word) : (s.setStack l).faulted = s.faulted := rfl
@[simp] theorem State.setStack_config (s : State) (l : List Word) : (s.setStack l).config = s.config := rfl
@[simp] theorem State.setStack_cycleNo (s : State) (l : List Word) : (s.setStack l).cycleNo = s.cycleNo := rfl
@[simp] theorem State.setStack_report (s : State) (l : List Word) : (s.setStack l).report = s.report := rfl
@[simp] theorem State.setStack_schedule (s : State) (l : List Word) : (s.setStack l).schedule = s.schedule := rfl

/-! `setMem` -/
@[simp] theorem State.setMem_v (s : State) (m : Memory) : (s.setMem m).v = s.v := rfl
@[simp] theorem State.setMem_i (s : State) (m : Memory) : (s.setMem m).i = s.i := rfl
@[simp] theorem State.setMem_pc (s : State) (m : Memory) : (s.setMem m).pc = s.pc := rfl
@[simp] theorem State.setMem_stack (s : State) (m : Memory) : (s.setMem m).stack = s.stack := rfl
@[simp] theorem State.setMem_mem (s : State) (m : Memory) : (s.setMem m).mem = m := rfl
@[simp] theorem State.setMem_disp (s : State) (m : Memory) : (s.setMem m).disp = s.disp := rfl
@[simp] theorem State.setMem_dirty (s : State) (m : Memory) : (s.setMem m).dirty = s.dirty := rfl
@[simp] theorem State.setMem_dt (s : State) (m : Memory) : (s.setMem m).dt = s.dt := rfl
@[simp] theorem State.setMem_st (s : State) (m : Memory) : (s.setMem m).st = s.st := rfl
@[simp] theorem State.setMem_keys (s : State) (m : Memory) : (s.setMem m).keys = s.keys := rfl
@[simp] theorem State.setMem_lastKeys (s : State) (m : Memory) : (s.setMem m).lastKeys = s.lastKeys := rfl
@[simp] theorem State.setMem_quirks (s : State) (m : Memory) : (s.setMem m).quirks = s.quirks := rfl
@[simp] theorem State.setMem_faulted (s : State) (m : Memory) : (s.setMem m).faulted = s.faulted := rfl
@[simp] theorem State.setMem_config (s : State) (m : Memory) : (s.setMem m).config = s.config := rfl
@[simp] theorem State.setMem_cycleNo (s : State) (m : Memory) : (s.setMem m).cycleNo = s.cycleNo := rfl
@[simp] theorem State.setMem_report (s : State) (m : Memory) : (s.setMem m).report = s.report := rfl
@[simp] theorem State.setMem_schedule (s : State) (m : Memory) : (s.setMem m).schedule = s.schedule := rfl

/-! `setDt` -/
@[simp] theorem State.setDt_v (s : State) (b : Byte) : (s.setDt b).v = s.v := rfl
@[simp] theorem State.setDt_i (s : State) (b : Byte) : (s.setDt b).i = s.i := rfl
@[simp] theorem State.setDt_pc (s : State) (b : Byte) : (s.setDt b).pc = s.pc := rfl
@[simp] theorem State.setDt_stack (s : State) (b : Byte) : (s.setDt b).stack = s.stack := rfl
@[simp] theorem State.setDt_mem (s : State) (b : Byte) : (s.setDt b).mem = s.mem := rfl
@[simp] theorem State.setDt_disp (s : State) (b : Byte) : (s.setDt b).disp = s.disp := rfl
@[simp] theorem State.setDt_dirty (s : State) (b : Byte) : (s.setDt b).dirty = s.dirty := rfl
@[simp] theorem State.setDt_dt (s : State) (b : Byte) : (s.setDt b).dt = b := rfl
@[simp] theorem State.setDt_st (s : State) (b : Byte) : (s.setDt b).st = s.st := rfl
@[simp] theorem State.setDt_keys (s : State) (b : Byte) : (s.setDt b).keys = s.keys := rfl
@[simp] theorem State.setDt_lastKeys (s : State) (b : Byte) : (s.setDt b).lastKeys = s.lastKeys := rfl
@[simp] theorem State.setDt_quirks (s : State) (b : Byte) : (s.setDt b).quirks = s.quirks := rfl
@[simp] theorem State.setDt_faulted (s : State) (b : Byte) : (s.setDt b).faulted = s.faulted := rfl
@[simp] theorem State.setDt_config (s : State) (b : Byte) : (s.setDt b).config = s.config := rfl
@[simp] theorem State.setDt_cycleNo (s : State) (b : Byte) : (s.setDt b).cycleNo = s.cycleNo := rfl
@[simp] theorem State.setDt_report (s : State) (b : Byte) : (s.setDt b).report = s.report := rfl
@[simp] theorem State.setDt_schedule (s : State) (b : Byte) : (s.setDt b).schedule = s.schedule := rfl

/-! `setSt` -/
@[simp] theorem State.setSt_v (s : State) (b : Byte) : (s.setSt b).v = s.v := rfl
@[simp] theorem State.setSt_i (s : State) (b : Byte) : (s.setSt b).i = s.i := rfl
@[simp] theorem State.setSt_pc (s : State) (b : Byte) : (s.setSt b).pc = s.pc := rfl
@[simp] theorem State.setSt_stack (s : State) (b : Byte) : (s.setSt b).stack = s.stack := rfl
@[simp] theorem State.setSt_mem (s : State) (b : Byte) : (s.setSt b).mem = s.mem := rfl
@[simp] theorem State.setSt_disp (s : State) (b : Byte) : (s.setSt b).disp = s.disp := rfl
@[simp] theorem State.setSt_dirty (s : State) (b : Byte) : (s.setSt b).dirty = s.dirty := rfl
@[simp] theorem State.setSt_dt (s : State) (b : Byte) : (s.setSt b).dt = s.dt := rfl
@[simp] theorem State.setSt_st (s : State) (b : Byte) : (s.setSt b).st = b := rfl
@[simp] theorem State.setSt_keys (s : State) (b : Byte) : (s.setSt b).keys = s.keys := rfl
@[simp] theorem State.setSt_lastKeys (s : State) (b : Byte) : (s.setSt b).lastKeys = s.lastKeys := rfl
@[simp] theorem State.setSt_quirks (s : State) (b : Byte) : (s.setSt b).quirks = s.quirks := rfl
@[simp] theorem State.setSt_faulted (s : State) (b : Byte) : (s.setSt b).faulted = s.faulted := rfl
@[simp] theorem State.setSt_config (s : State) (b : Byte) : (s.setSt b).config = s.config := rfl
@[simp] theorem State.setSt_cycleNo (s : State) (b : Byte) : (s.setSt b).cycleNo = s.cycleNo := rfl
@[simp] theorem State.setSt_report (s : State) (b : Byte) : (s.setSt b).report = s.report := rfl
@[simp] theorem State.setSt_schedule (s : State) (b : Byte) : (s.setSt b).schedule = s.schedule := rfl

/-! `setScreen` -/
@[simp] theorem State.setScreen_v (s : State) (scr : Screen) : (s.setScreen scr).v = s.v := rfl
@[simp] theorem State.setScreen_i (s : State) (scr : Screen) : (s.setScreen scr).i = s.i := rfl
@[simp] theorem State.setScreen_pc (s : State) (scr : Screen) : (s.setScreen scr).pc = s.pc := rfl
@[simp] theorem State.setScreen_stack (s : State) (scr : Screen) : (s.setScreen scr).stack = s.stack := rfl
@[simp] theorem State.setScreen_mem (s : State) (scr : Screen) : (s.setScreen scr).mem = s.mem := rfl
@[simp] theorem State.setScreen_disp (s : State) (scr : Screen) : (s.setScreen scr).disp = scr.disp := rfl
@[simp] theorem State.setScreen_dirty (s : State) (scr : Screen) : (s.setScreen scr).dirty = scr.dirty := rfl
@[simp] theorem State.setScreen_dt (s : State) (scr : Screen) : (s.setScreen scr).dt = s.dt := rfl
@[simp] theorem State.setScreen_st (s : State) (scr : Screen) : (s.setScreen scr).st = s.st := rfl
@[simp] theorem State.setScreen_keys (s : State) (scr : Screen) : (s.setScreen scr).keys = s.keys := rfl
@[simp] theorem State.setScreen_lastKeys (s : State) (scr : Screen) : (s.setScreen scr).lastKeys = s.lastKeys := rfl
@[simp] theorem State.setScreen_quirks (s : State) (scr : Screen) : (s.setScreen scr).quirks = s.quirks := rfl
@[simp] theorem State.setScreen_faulted (s : State) (scr : Screen) : (s.setScreen scr).faulted = s.faulted := rfl
@[simp] theorem State.setScreen_config (s : State) (scr : Screen) : (s.setScreen scr).config = s.config := rfl
@[simp] theorem State.setScreen_cycleNo (s : State) (scr : Screen) : (s.setScreen scr).cycleNo = s.cycleNo := rfl
@[simp] theorem State.setScreen_report (s : State) (scr : Screen) : (s.setScreen scr).report = s.report := rfl
@[simp] theorem State.setScreen_schedule (s : State) (scr : Screen) : (s.setScreen scr).schedule = s.schedule := rfl

/-! `setReg` -/
@[simp] theorem State.setReg_v (s : State) (x : Nibble) (b : Byte) : (s.setReg x b).v = s.v.set x.toNat b x.isLt := rfl
@[simp] theorem State.setReg_i (s : State) (x : Nibble) (b : Byte) : (s.setReg x b).i = s.i := rfl
@[simp] theorem State.setReg_pc (s : State) (x : Nibble) (b : Byte) : (s.setReg x b).pc = s.pc := rfl
@[simp] theorem State.setReg_stack (s : State) (x : Nibble) (b : Byte) : (s.setReg x b).stack = s.stack := rfl
@[simp] theorem State.setReg_mem (s : State) (x : Nibble) (b : Byte) : (s.setReg x b).mem = s.mem := rfl
@[simp] theorem State.setReg_disp (s : State) (x : Nibble) (b : Byte) : (s.setReg x b).disp = s.disp := rfl
@[simp] theorem State.setReg_dirty (s : State) (x : Nibble) (b : Byte) : (s.setReg x b).dirty = s.dirty := rfl
@[simp] theorem State.setReg_dt (s : State) (x : Nibble) (b : Byte) : (s.setReg x b).dt = s.dt := rfl
@[simp] theorem State.setReg_st (s : State) (x : Nibble) (b : Byte) : (s.setReg x b).st = s.st := rfl
@[simp] theorem State.setReg_keys (s : State) (x : Nibble) (b : Byte) : (s.setReg x b).keys = s.keys := rfl
@[simp] theorem State.setReg_lastKeys (s : State) (x : Nibble) (b : Byte) : (s.setReg x b).lastKeys = s.lastKeys := rfl
@[simp] theorem State.setReg_quirks (s : State) (x : Nibble) (b : Byte) : (s.setReg x b).quirks = s.quirks := rfl
@[simp] theorem State.setReg_faulted (s : State) (x : Nibble) (b : Byte) : (s.setReg x b).faulted = s.faulted := rfl
@[simp] theorem State.setReg_config (s : State) (x : Nibble) (b : Byte) : (s.setReg x b).config = s.config := rfl
@[simp] theorem State.setReg_cycleNo (s : State) (x : Nibble) (b : Byte) : (s.setReg x b).cycleNo = s.cycleNo := rfl
@[simp] theorem State.setReg_report (s : State) (x : Nibble) (b : Byte) : (s.setReg x b).report = s.report := rfl
@[simp] theorem State.setReg_schedule (s : State) (x : Nibble) (b : Byte) : (s.setReg x b).schedule = s.schedule := rfl

/-! `advance` -/
@[simp] theorem State.advance_v (s : State) : (s.advance).v = s.v := rfl
@[simp] theorem State.advance_i (s : State) : (s.advance).i = s.i := rfl
@[simp] theorem State.advance_pc (s : State) : (s.advance).pc = s.pc + 2 := rfl
@[simp] theorem State.advance_stack (s : State) : (s.advance).stack = s.stack := rfl
@[simp] theorem State.advance_mem (s : State) : (s.advance).mem = s.mem := rfl
@[simp] theorem State.advance_disp (s : State) : (s.advance).disp = s.disp := rfl
@[simp] theorem State.advance_dirty (s : State) : (s.advance).dirty = s.dirty := rfl
@[simp] theorem State.advance_dt (s : State) : (s.advance).dt = s.dt := rfl
@[simp] theorem State.advance_st (s : State) : (s.advance).st = s.st := rfl
@[simp] theorem State.advance_keys (s : State) : (s.advance).keys = s.keys := rfl
@[simp] theorem State.advance_lastKeys (s : State) : (s.advance).lastKeys = s.lastKeys := rfl
@[simp] theorem State.advance_quirks (s : State) : (s.advance).quirks = s.quirks := rfl
@[simp] theorem State.advance_faulted (s : State) : (s.advance).faulted = s.faulted := rfl
@[simp] theorem State.advance_config (s : State) : (s.advance).config = s.config := rfl
@[simp] theorem State.advance_cycleNo (s : State) : (s.advance).cycleNo = s.cycleNo := rfl
@[simp] theorem State.advance_report (s : State) : (s.advance).report = s.report := rfl
@[simp] theorem State.advance_schedule (s : State) : (s.advance).schedule = s.schedule := rfl

/-! `endCycle` -/
@[simp] theorem State.endCycle_v (s : State) (r : Report) : (s.endCycle r).v = s.v := rfl
@[simp] theorem State.endCycle_i (s : State) (r : Report) : (s.endCycle r).i = s.i := rfl
@[simp] theorem State.endCycle_pc (s : State) (r : Report) : (s.endCycle r).pc = s.pc := rfl
@[simp] theorem State.endCycle_stack (s : State) (r : Report) : (s.endCycle r).stack = s.stack := rfl
@[simp] theorem State.endCycle_mem (s : State) (r : Report) : (s.endCycle r).mem = s.mem := rfl
@[simp] theorem State.endCycle_disp (s : State) (r : Report) : (s.endCycle r).disp = s.disp := rfl
@[simp] theorem State.endCycle_dirty (s : State) (r : Report) : (s.endCycle r).dirty = s.dirty := rfl
@[simp] theorem State.endCycle_dt (s : State) (r : Report) : (s.endCycle r).dt = s.dt := rfl
@[simp] theorem State.endCycle_st (s : State) (r : Report) : (s.endCycle r).st = s.st := rfl
@[simp] theorem State.endCycle_keys (s : State) (r : Report) : (s.endCycle r).keys = s.keys := rfl
@[simp] theorem State.endCycle_lastKeys (s : State) (r : Report) : (s.endCycle r).lastKeys = s.keys := rfl
@[simp] theorem State.endCycle_quirks (s : State) (r : Report) : (s.endCycle r).quirks = s.quirks := rfl
@[simp] theorem State.endCycle_faulted (s : State) (r : Report) : (s.endCycle r).faulted = s.faulted := rfl
@[simp] theorem State.endCycle_config (s : State) (r : Report) : (s.endCycle r).config = s.config := rfl
@[simp] theorem State.endCycle_cycleNo (s : State) (r : Report) : (s.endCycle r).cycleNo = s.cycleNo + 1 := rfl
@[simp] theorem State.endCycle_report (s : State) (r : Report) : (s.endCycle r).report = r := rfl
@[simp] theorem State.endCycle_schedule (s : State) (r : Report) : (s.endCycle r).schedule = s.schedule := rfl

/-! `afterFault` -/
@[simp] theorem State.afterFault_v (s : State) (r : Fault) : (s.afterFault r).v = s.v := rfl
@[simp] theorem State.afterFault_i (s : State) (r : Fault) : (s.afterFault r).i = s.i := rfl
@[simp] theorem State.afterFault_pc (s : State) (r : Fault) : (s.afterFault r).pc = s.pc := rfl
@[simp] theorem State.afterFault_stack (s : State) (r : Fault) : (s.afterFault r).stack = s.stack := rfl
@[simp] theorem State.afterFault_mem (s : State) (r : Fault) : (s.afterFault r).mem = s.mem := rfl
@[simp] theorem State.afterFault_disp (s : State) (r : Fault) : (s.afterFault r).disp = s.disp := rfl
@[simp] theorem State.afterFault_dirty (s : State) (r : Fault) : (s.afterFault r).dirty = s.dirty := rfl
@[simp] theorem State.afterFault_dt (s : State) (r : Fault) : (s.afterFault r).dt = s.dt := rfl
@[simp] theorem State.afterFault_st (s : State) (r : Fault) : (s.afterFault r).st = s.st := rfl
@[simp] theorem State.afterFault_keys (s : State) (r : Fault) : (s.afterFault r).keys = s.keys := rfl
@[simp] theorem State.afterFault_lastKeys (s : State) (r : Fault) : (s.afterFault r).lastKeys = s.lastKeys := rfl
@[simp] theorem State.afterFault_quirks (s : State) (r : Fault) : (s.afterFault r).quirks = s.quirks := rfl
@[simp] theorem State.afterFault_faulted (s : State) (r : Fault) : (s.afterFault r).faulted = true := rfl
@[simp] theorem State.afterFault_config (s : State) (r : Fault) : (s.afterFault r).config = s.config := rfl
@[simp] theorem State.afterFault_cycleNo (s : State) (r : Fault) : (s.afterFault r).cycleNo = s.cycleNo := rfl
@[simp] theorem State.afterFault_report (s : State) (r : Fault) : (s.afterFault r).report = .fault r := rfl
@[simp] theorem State.afterFault_schedule (s : State) (r : Fault) : (s.afterFault r).schedule = s.schedule := rfl

end Sys2Proof.Machine
end

