-- ==== Sys2Proof/Laws/Ops.lean ====
section
/-! SUPPORT. For each shared operation, once, everything it can do; proofs about instructions cite these and do not unfold the operations. -/

namespace Sys2Proof.Machine

/-! ## Registers -/

@[simp] theorem State.reg_setReg (s : State) (x r : Nibble) (b : Byte) :
    (s.setReg x b).reg r = if r = x then b else s.reg r := by
  unfold State.reg State.setReg State.setRegs
  simp only [Vector.getElem_set]
  by_cases h : r = x
  · simp [h]
  · have : x.toNat ≠ r.toNat := fun e => h (BitVec.eq_of_toNat_eq e.symm)
    simp [h, this]

@[simp] theorem State.reg_setI (s : State) (w : Word) (r : Nibble) : (s.setI w).reg r = s.reg r := rfl
@[simp] theorem State.reg_setPc (s : State) (w : Word) (r : Nibble) : (s.setPc w).reg r = s.reg r := rfl
@[simp] theorem State.reg_setStack (s : State) (l : List Word) (r : Nibble) : (s.setStack l).reg r = s.reg r := rfl
@[simp] theorem State.reg_setMem (s : State) (m : Memory) (r : Nibble) : (s.setMem m).reg r = s.reg r := rfl
@[simp] theorem State.reg_setDt (s : State) (b : Byte) (r : Nibble) : (s.setDt b).reg r = s.reg r := rfl
@[simp] theorem State.reg_setSt (s : State) (b : Byte) (r : Nibble) : (s.setSt b).reg r = s.reg r := rfl
@[simp] theorem State.reg_setScreen (s : State) (scr : Screen) (r : Nibble) :
    (s.setScreen scr).reg r = s.reg r := rfl
@[simp] theorem State.reg_advance (s : State) (r : Nibble) : s.advance.reg r = s.reg r := rfl
@[simp] theorem State.reg_endCycle (s : State) (rep : Report) (r : Nibble) : (s.endCycle rep).reg r = s.reg r := rfl

@[simp] theorem State.byteAt_setRegs (s : State) (v : Vector Byte 16) (a : Nat) :
    (s.setRegs v).byteAt a = s.byteAt a := rfl
@[simp] theorem State.byteAt_setReg (s : State) (x : Nibble) (b : Byte) (a : Nat) :
    (s.setReg x b).byteAt a = s.byteAt a := rfl
@[simp] theorem State.byteAt_setI (s : State) (w : Word) (a : Nat) : (s.setI w).byteAt a = s.byteAt a := rfl
@[simp] theorem State.byteAt_setPc (s : State) (w : Word) (a : Nat) : (s.setPc w).byteAt a = s.byteAt a := rfl
@[simp] theorem State.byteAt_setStack (s : State) (l : List Word) (a : Nat) :
    (s.setStack l).byteAt a = s.byteAt a := rfl
@[simp] theorem State.byteAt_setScreen (s : State) (scr : Screen) (a : Nat) :
    (s.setScreen scr).byteAt a = s.byteAt a := rfl

/-- The registers after `fillRegs`: the given bytes from `first` on, the old values elsewhere. -/
theorem fillRegs_getElem : ∀ (bs : List Byte) (v : Vector Byte 16) (first r : Nat) (hr : r < 16),
    (fillRegs v first bs)[r] = if first ≤ r ∧ r < first + bs.length then bs.getD (r - first) 0 else v[r]
  | [], v, first, r, hr => by
    have : ¬ (first ≤ r ∧ r < first + ([] : List Byte).length) := by simp only [List.length_nil]; omega
    rw [if_neg this, fillRegs]
  | b :: bs, v, first, r, hr => by
    rw [fillRegs, fillRegs_getElem bs _ (first + 1) r hr, Vector.getElem_setIfInBounds hr]
    simp only [List.length_cons]
    by_cases h1 : first = r
    · subst h1
      have h2 : ¬ (first + 1 ≤ first ∧ first < first + 1 + bs.length) := by omega
      have h3 : first ≤ first ∧ first < first + (bs.length + 1) := by omega
      rw [if_neg h2, if_pos h3, if_pos rfl, Nat.sub_self, List.getD_cons_zero]
    · by_cases h4 : first + 1 ≤ r ∧ r < first + 1 + bs.length
      · have h5 : first ≤ r ∧ r < first + (bs.length + 1) := by omega
        have h6 : r - first = (r - (first + 1)) + 1 := by omega
        rw [if_pos h4, if_pos h5, h6, List.getD_cons_succ]
      · have h5 : ¬ (first ≤ r ∧ r < first + (bs.length + 1)) := by omega
        rw [if_neg h4, if_neg h5, if_neg h1]

theorem State.regsUpTo_length (s : State) (x : Nibble) : (s.regsUpTo x).length = x.toNat + 1 := by
  have := x.isLt
  simp only [State.regsUpTo, List.length_take, Vector.length_toList]
  omega

theorem State.regsUpTo_getD (s : State) (x r : Nibble) (h : r.toNat ≤ x.toNat) :
    (s.regsUpTo x).getD r.toNat 0 = s.reg r := by
  have hr : r.toNat < 16 := r.isLt
  have hl : r.toNat < (s.regsUpTo x).length := by rw [State.regsUpTo_length]; omega
  rw [List.getD_eq_getElem _ _ hl]
  simp [State.regsUpTo, State.reg]

/-! ## Memory accesses -/

theorem memRead_ok {s : State} {a : Word} (h : a.toNat ≤ 4095) : memRead s a = .ok (s.byteAt a.toNat) := by
  rw [memRead, if_neg (by omega)]

theorem memRead_error {s : State} {a : Word} (h : a.toNat > 4095) : memRead s a = .error (.memoryOutOfRange a) := by
  rw [memRead, if_pos h]

theorem memWrite_ok {s : State} {a : Word} {b : Byte} (h : a.toNat ≤ 4095) :
    memWrite s a b = .ok (s.setMem (Memory.write s.config s.mem a.toNat b)) := by
  rw [memWrite, if_neg (by omega)]

theorem memWrite_error {s : State} {a : Word} {b : Byte} (h : a.toNat > 4095) :
    memWrite s a b = .error (.memoryOutOfRange a) := by
  rw [memWrite, if_pos h]

theorem firstBad_succ {a : Word} (h : a.toNat ≤ 4095) : firstBad (a + 1) = firstBad a := by
  have h1 : (a + 1).toNat = a.toNat + 1 := by rw [BitVec.toNat_add]; simp; omega
  unfold firstBad
  by_cases h2 : a.toNat = 4095
  · rw [if_neg (by omega), if_pos h]
    apply BitVec.eq_of_toNat_eq
    rw [h1, h2]; rfl
  · rw [if_pos (by omega), if_pos h]

/-- A run of reads inside memory gives the bytes there. -/
theorem readBytes_ok : ∀ {n : Nat} {s : State} {a : Word}, a.toNat + n ≤ 4096 →
    readBytes s a n = .ok ((List.range n).map fun k => s.byteAt (a.toNat + k))
  | 0, _, _, _ => rfl
  | n + 1, s, a, h => by
    rw [readBytes, memRead_ok (by omega)]
    cases n with
    | zero => simp [readBytes, List.range_succ]
    | succ n =>
      have h1 : (a + 1).toNat = a.toNat + 1 := by rw [BitVec.toNat_add]; simp; omega
      rw [readBytes_ok (by omega), List.range_succ_eq_map (n := n + 1)]
      simp only [h1, List.map_cons, List.map_map, Nat.add_zero]
      congr 2
      apply List.map_congr_left
      intro k _
      simp only [Function.comp, Nat.succ_eq_add_one]
      congr 1
      omega

/-- A run of reads that leaves memory faults at the first address out of range. -/
theorem readBytes_error : ∀ {n : Nat} {s : State} {a : Word}, 0 < n → a.toNat + n > 4096 →
    readBytes s a n = .error (.memoryOutOfRange (firstBad a))
  | 0, _, _, h, _ => absurd h (by omega)
  | n + 1, s, a, _, h => by
    rw [readBytes]
    by_cases h1 : a.toNat ≤ 4095
    · have h2 : (a + 1).toNat = a.toNat + 1 := by rw [BitVec.toNat_add]; simp; omega
      rw [memRead_ok h1, readBytes_error (n := n) (by omega) (by omega), firstBad_succ h1]
    · rw [memRead_error (by omega), firstBad, if_neg h1]

/-- A run of writes inside memory changes memory alone. -/
theorem writeBytes_ok : ∀ {bs : List Byte} {s : State} {a : Word}, a.toNat + bs.length ≤ 4096 →
    writeBytes s a bs = .ok (s.setMem (Memory.writeRun s.config s.mem a.toNat bs))
  | [], _, _, _ => rfl
  | b :: bs, s, a, h => by
    simp only [List.length_cons] at h
    rw [writeBytes, memWrite_ok (by omega)]
    cases bs with
    | nil => rfl
    | cons b' bs =>
      have h1 : (a + 1).toNat = a.toNat + 1 := by
        simp only [List.length_cons] at h
        rw [BitVec.toNat_add]; simp; omega
      show writeBytes _ (a + 1) (b' :: bs) = _
      rw [writeBytes_ok (by omega), h1]
      rfl

/-- A run of writes that leaves memory faults at the first address out of range. -/
theorem writeBytes_error : ∀ {bs : List Byte} {s : State} {a : Word}, bs ≠ [] → a.toNat + bs.length > 4096 →
    writeBytes s a bs = .error (.memoryOutOfRange (firstBad a))
  | [], _, _, h, _ => absurd rfl h
  | b :: bs, s, a, _, h => by
    simp only [List.length_cons] at h
    rw [writeBytes]
    by_cases h1 : a.toNat ≤ 4095
    · have h2 : (a + 1).toNat = a.toNat + 1 := by rw [BitVec.toNat_add]; simp; omega
      rw [memWrite_ok h1]
      show writeBytes _ (a + 1) bs = _
      rw [writeBytes_error (by intro e; subst e; simp at h; omega) (by omega), firstBad_succ h1]
    · rw [memWrite_error (by omega), firstBad, if_neg h1]

/-- The bytes of memory after a run of writes, in a state whose memory is in canonical form. -/
theorem byteAt_writeRun {s : State} {a : Nat} {bs : List Byte} (h : Memory.wf s.config s.mem = true)
    (ha : a + bs.length ≤ 4096) (x : Nat) :
    (s.setMem (Memory.writeRun s.config s.mem a bs)).byteAt x =
      if a ≤ x ∧ x < a + bs.length then bs.getD (x - a) 0 else s.byteAt x :=
  Memory.read_writeRun h ha x

/-! ## The stack -/

/-- Everything `push` can do. -/
theorem push_cases (s : State) (w : Word) :
    (s.config.stackDepth = some s.stack.length ∧ push s w = .error (.stackOverflow w)) ∨
    (s.config.stackDepth ≠ some s.stack.length ∧ push s w = .ok (s.setStack (w :: s.stack))) := by
  by_cases h : s.config.stackDepth = some s.stack.length
  · exact .inl ⟨h, by rw [push, if_pos h]⟩
  · exact .inr ⟨h, by rw [push, if_neg h]⟩

theorem pop_nil {s : State} (h : s.stack = []) : pop s = .error .stackUnderflow := by
  rw [pop, h]

theorem pop_cons {s : State} {w : Word} {rest : List Word} (h : s.stack = w :: rest) :
    pop s = .ok (w, s.setStack rest) := by
  rw [pop, h]

/-! ## The fetch -/

/-- Everything the fetch can do: the big-endian word, or a fault on its first or on its second byte. -/
theorem fetch_ok {s : State} (h : s.pc.toNat ≤ 4094) :
    fetch s = .ok (wordOfBytes (s.byteAt s.pc.toNat) (s.byteAt (s.pc.toNat + 1))) := by
  have h1 : (s.pc + 1).toNat = s.pc.toNat + 1 := by rw [BitVec.toNat_add]; simp; omega
  rw [fetch, memRead_ok (by omega)]
  show (match memRead s (s.pc + 1) with | .error r => _ | .ok lo => _) = _
  rw [memRead_ok (by omega), h1]

theorem fetch_second {s : State} (h : s.pc.toNat = 4095) : fetch s = .error (.memoryOutOfRange 4096) := by
  have h1 : s.pc + 1 = 4096 := BitVec.eq_of_toNat_eq (by rw [BitVec.toNat_add, h]; rfl)
  rw [fetch, memRead_ok (by omega)]
  show (match memRead s (s.pc + 1) with | .error r => _ | .ok lo => _) = _
  rw [h1, memRead_error (by decide)]

theorem fetch_first {s : State} (h : s.pc.toNat > 4095) : fetch s = .error (.memoryOutOfRange s.pc) := by
  rw [fetch, memRead_error h]

/-! ## Operand forms -/

theorem skipIf_true (s : State) : skipIf true s = s.setPc (s.pc + 2) := rfl
theorem skipIf_false (s : State) : skipIf false s = s := rfl

/-- What `advanceIndex` does: I under `memory`, nothing else. -/
theorem advanceIndex_eq (x : Nibble) (s : State) :
    advanceIndex x s = s.setI (if s.quirks.memory then s.i + zext16 x + 1 else s.i) := by
  unfold advanceIndex
  cases s.quirks.memory <;> rfl

/-- The key list holds exactly the codes of the keys in the set. -/
theorem mem_keyCodes {set : BitVec 16} {k : Nibble} : k ∈ keyCodes set ↔ set.getLsbD k.toNat = true := by
  unfold keyCodes
  simp only [List.mem_map, List.mem_filter, List.mem_range]
  constructor
  · rintro ⟨n, ⟨hn, hs⟩, rfl⟩
    have : n % 16 = n := Nat.mod_eq_of_lt hn
    simpa [BitVec.toNat_ofNat, this] using hs
  · intro h
    exact ⟨k.toNat, ⟨k.isLt, h⟩, by simp⟩

/-- Whatever the choice, `pick` gives an element of the list. -/
theorem pick_mem : ∀ (k : Nibble) (ks : List Nibble) (n : Nat), pick k ks n ∈ k :: ks
  | _, [], _ => by simp [pick]
  | _, _ :: _, 0 => by simp [pick]
  | _, k' :: ks, n + 1 => List.mem_cons_of_mem _ (pick_mem k' ks n)

/-- Every element of the list is some choice. -/
theorem exists_pick : ∀ (k : Nibble) (ks : List Nibble) {k0 : Nibble}, k0 ∈ k :: ks → ∃ n, pick k ks n = k0
  | k, [], k0, h => ⟨0, (List.mem_singleton.mp h).symm⟩
  | k, k' :: ks, k0, h => by
    rcases List.mem_cons.mp h with rfl | h
    · exact ⟨0, rfl⟩
    · obtain ⟨n, hn⟩ := exists_pick k' ks h
      exact ⟨n + 1, hn⟩

end Sys2Proof.Machine
end

