-- ==== Sys2Proof/Laws/Display.lean ====
section
/-! SUPPORT. The display: what a cell holds after one write, one pixel, and a sequence of pixels at distinct cells. -/

namespace Sys2Proof.Machine

/-- A cell after a write: the written one holds the bit, every other one is as before. -/
theorem cell_setCell (d : Display) (x x' : Fin 64) (y y' : Fin 32) (b : Bool) :
    cell (setCell d x y b) x' y' = if x' = x ∧ y' = y then b else cell d x' y' := by
  have hx' := x'.isLt
  have hbit : ∀ n : Nat, n < 64 → (1#64 <<< x.val).getLsbD n = decide (n = x.val) := by
    intro n hn
    rw [BitVec.getLsbD_shiftLeft]
    by_cases h : n < x.val
    · simp [h, show n ≠ x.val by omega]
    · by_cases h2 : n = x.val
      · simp [h2]
      · have : n - x.val ≠ 0 := by omega
        simp [h, h2, hn, BitVec.getLsbD_one, this]
  unfold cell setCell
  simp only [Vector.getElem_set]
  by_cases hy : y' = y
  · subst hy
    simp only [if_true, and_true]
    cases b
    · simp only [Bool.false_eq_true, if_false, BitVec.getLsbD_and, BitVec.getLsbD_not, hbit _ hx', hx', decide_true,
        Bool.true_and]
      by_cases h : x' = x
      · simp [h]
      · have : x'.val ≠ x.val := fun e => h (Fin.ext e)
        simp [h, this]
    · simp only [if_true, BitVec.getLsbD_or, hbit _ hx']
      by_cases h : x' = x
      · simp [h]
      · have : x'.val ≠ x.val := fun e => h (Fin.ext e)
        simp [h, this]
  · have : y.val ≠ y'.val := fun e => hy (Fin.ext e.symm)
    simp [this, hy]

/-- Everything `setPixel` does. -/
theorem cell_setPixel (scr : Screen) (x x' : Fin 64) (y y' : Fin 32) (bit : Bool) :
    cell (setPixel scr x y bit).1.disp x' y' =
      if x' = x ∧ y' = y then (cell scr.disp x y ^^ bit) else cell scr.disp x' y' :=
  cell_setCell _ _ _ _ _ _

theorem setPixel_dirty (scr : Screen) (x : Fin 64) (y : Fin 32) (bit : Bool) :
    (setPixel scr x y bit).1.dirty = (scr.dirty || bit) := by
  show (scr.dirty || ((cell scr.disp x y ^^ bit) != cell scr.disp x y)) = _
  cases cell scr.disp x y <;> cases bit <;> simp

theorem setPixel_hit (scr : Screen) (x : Fin 64) (y : Fin 32) (bit : Bool) :
    (setPixel scr x y bit).2 = (cell scr.disp x y && bit) := by
  show (cell scr.disp x y && !(cell scr.disp x y ^^ bit)) = _
  cases cell scr.disp x y <;> cases bit <;> rfl

/-- Displays with the same cells are the same display. -/
theorem display_ext {d d' : Display} (h : ∀ x y, cell d x y = cell d' x y) : d = d' := by
  apply Vector.ext
  intro y hy
  apply BitVec.eq_of_getLsbD_eq
  intro x hx
  exact h ⟨x, hx⟩ ⟨y, hy⟩

/-! ## The blit as a sequence of pixels -/

/-- One pixel to write: its cell and its bit. -/
abbrev Pixel := (Fin 64 × Fin 32) × Bool

/-- The pixels a row writes, in order, the clipped ones left out. -/
def rowPixels (clipping : Bool) (tx ty : Nat) : List Bool → List Pixel
  | [] => []
  | bit :: bits =>
    ((target clipping tx ty).map fun p => (p, bit)).toList ++ rowPixels clipping (tx + 1) ty bits

/-- The pixels a blit writes, in order. -/
def blitPixels (clipping : Bool) (x0 y0 : Nat) : List Byte → List Pixel
  | [] => []
  | b :: bs => rowPixels clipping x0 y0 (spriteBits b) ++ blitPixels clipping x0 (y0 + 1) bs

/-- Pixels written one after another, and whether one went from 1 to 0. -/
def setPixels (scr : Screen) : List Pixel → Screen × Bool
  | [] => (scr, false)
  | (p, bit) :: ps =>
    let r := setPixel scr p.1 p.2 bit
    let q := setPixels r.1 ps
    (q.1, r.2 || q.2)

theorem setPixels_append (scr : Screen) (ps qs : List Pixel) : setPixels scr (ps ++ qs) =
    ((setPixels (setPixels scr ps).1 qs).1, (setPixels scr ps).2 || (setPixels (setPixels scr ps).1 qs).2) := by
  induction ps generalizing scr with
  | nil => simp [setPixels]
  | cons p ps ih => simp [setPixels, ih, Bool.or_assoc]

theorem blitRow_eq (clipping : Bool) : ∀ (bits : List Bool) (scr : Screen) (tx ty : Nat),
    blitRow clipping scr tx ty bits = setPixels scr (rowPixels clipping tx ty bits)
  | [], _, _, _ => rfl
  | bit :: bits, scr, tx, ty => by
    rw [blitRow, rowPixels, setPixels_append]
    unfold blitPixel
    cases target clipping tx ty with
    | none => simp [setPixels, blitRow_eq clipping bits]
    | some p => simp [setPixels, blitRow_eq clipping bits]

/-- The blit writes its pixels one after another. -/
theorem blit_eq (clipping : Bool) : ∀ (rows : List Byte) (scr : Screen) (x0 y0 : Nat),
    blit clipping scr x0 y0 rows = setPixels scr (blitPixels clipping x0 y0 rows)
  | [], _, _, _ => rfl
  | b :: bs, scr, x0, y0 => by
    rw [blit, blitPixels, setPixels_append, ← blitRow_eq, ← blit_eq clipping bs]

/-- A cell that is no pixel's keeps its value. -/
theorem setPixels_cell_other (x : Fin 64) (y : Fin 32) : ∀ (ps : List Pixel) (scr : Screen),
    (∀ p ∈ ps, p.1 ≠ (x, y)) → cell (setPixels scr ps).1.disp x y = cell scr.disp x y
  | [], _, _ => rfl
  | (p, bit) :: ps, scr, h => by
    have h1 : ¬ (x = p.1 ∧ y = p.2) := fun e => h (p, bit) (by simp) (Prod.ext e.1.symm e.2.symm)
    show cell (setPixels (setPixel scr p.1 p.2 bit).1 ps).1.disp x y = _
    rw [setPixels_cell_other x y ps _ (fun q hq => h q (List.mem_cons_of_mem _ hq)), cell_setPixel, if_neg h1]

/-- Pixels at distinct cells: each cell written holds its old bit XOR the source bit. -/
theorem setPixels_cell (x : Fin 64) (y : Fin 32) (bit : Bool) : ∀ (ps : List Pixel) (scr : Screen),
    (ps.map (·.1)).Nodup → ((x, y), bit) ∈ ps → cell (setPixels scr ps).1.disp x y = (cell scr.disp x y ^^ bit)
  | [], _, _, h => absurd h (by simp)
  | (p, b) :: ps, scr, hn, h => by
    simp only [List.map_cons, List.nodup_cons, List.mem_map, not_exists, not_and] at hn
    show cell (setPixels (setPixel scr p.1 p.2 b).1 ps).1.disp x y = _
    rcases List.mem_cons.mp h with e | h
    · obtain ⟨rfl, rfl⟩ := Prod.mk.injEq .. ▸ e
      rw [setPixels_cell_other x y ps _ (fun q hq e => hn.1 q hq e), cell_setPixel, if_pos ⟨rfl, rfl⟩]
    · have hne : ¬ (x = p.1 ∧ y = p.2) := fun e => hn.1 _ h (Prod.ext e.1 e.2)
      rw [setPixels_cell x y bit ps _ hn.2 h, cell_setPixel, if_neg hne]

/-- The collision bit of pixels at distinct cells: some lit cell got a source bit 1. -/
theorem setPixels_hit : ∀ (ps : List Pixel) (scr : Screen), (ps.map (·.1)).Nodup →
    ((setPixels scr ps).2 = true ↔ ∃ p ∈ ps, cell scr.disp p.1.1 p.1.2 = true ∧ p.2 = true)
  | [], _, _ => by simp [setPixels]
  | (p, b) :: ps, scr, hn => by
    simp only [List.map_cons, List.nodup_cons, List.mem_map, not_exists, not_and] at hn
    show ((setPixel scr p.1 p.2 b).2 || (setPixels (setPixel scr p.1 p.2 b).1 ps).2) = true ↔ _
    rw [Bool.or_eq_true, setPixels_hit ps _ hn.2, setPixel_hit, Bool.and_eq_true]
    have hk : ∀ q ∈ ps, cell (setPixel scr p.1 p.2 b).1.disp q.1.1 q.1.2 = cell scr.disp q.1.1 q.1.2 := by
      intro q hq
      rw [cell_setPixel, if_neg fun e => hn.1 q hq (Prod.ext e.1 e.2)]
    constructor
    · rintro (h | ⟨q, hq, h⟩)
      · exact ⟨(p, b), by simp, h⟩
      · exact ⟨q, List.mem_cons_of_mem _ hq, by rwa [hk q hq] at h⟩
    · rintro ⟨q, hq, h⟩
      rcases List.mem_cons.mp hq with rfl | hq
      · exact .inl h
      · exact .inr ⟨q, hq, by rwa [hk q hq]⟩

theorem setPixels_dirty : ∀ (ps : List Pixel) (scr : Screen),
    ((setPixels scr ps).1.dirty = true ↔ scr.dirty = true ∨ ∃ p ∈ ps, p.2 = true)
  | [], _ => by simp [setPixels]
  | (p, b) :: ps, scr => by
    show (setPixels (setPixel scr p.1 p.2 b).1 ps).1.dirty = true ↔ _
    rw [setPixels_dirty ps, setPixel_dirty]
    cases b <;> simp

/-! ## Which pixels a blit writes -/

/-- A target pixel lands on the cell that `Lands` says, and nowhere else. -/
theorem target_some (clipping : Bool) (tx ty : Nat) (x : Fin 64) (y : Fin 32) :
    target clipping tx ty = some (x, y) ↔ Lands clipping tx ty x y := by
  have hx := x.isLt
  have hy := y.isLt
  unfold target Lands
  cases clipping
  · simp [Fin.ext_iff]
  · simp only [if_true]
    split
    · simp [Fin.ext_iff]
    · simp only [reduceCtorEq, false_iff]
      omega

/-- The pixels of a row, by column. -/
theorem mem_rowPixels (clipping : Bool) (p : Fin 64 × Fin 32) (b : Bool) : ∀ (bits : List Bool) (tx ty : Nat),
    (p, b) ∈ rowPixels clipping tx ty bits ↔ ∃ col, bits[col]? = some b ∧ Lands clipping (tx + col) ty p.1 p.2
  | [], _, _ => by simp [rowPixels]
  | bit :: bits, tx, ty => by
    rw [rowPixels, List.mem_append, mem_rowPixels clipping p b bits]
    have h1 : (p, b) ∈ ((target clipping tx ty).map fun q => (q, bit)).toList ↔
        bit = b ∧ Lands clipping tx ty p.1 p.2 := by
      rw [← target_some]
      cases target clipping tx ty <;> simp [Prod.ext_iff, and_comm, eq_comm]
    rw [h1]
    constructor
    · rintro (⟨rfl, h⟩ | ⟨col, h, hl⟩)
      · exact ⟨0, rfl, h⟩
      · exact ⟨col + 1, h, by rwa [show tx + (col + 1) = tx + 1 + col by omega]⟩
    · rintro ⟨col, h, hl⟩
      cases col with
      | zero => exact .inl ⟨Option.some.inj h, hl⟩
      | succ col => exact .inr ⟨col, h, by rwa [show tx + 1 + col = tx + (col + 1) by omega]⟩

/-- The source bit of a column: bit 7 is column 0. -/
theorem spriteBits_getElem? (b : Byte) (col : Nat) (bit : Bool) :
    (spriteBits b)[col]? = some bit ↔ col < 8 ∧ bit = b.getLsbD (7 - col) := by
  by_cases h : col < 8
  · interval_cases col <;> simp [spriteBits, eq_comm]
  · rw [List.getElem?_eq_none (by simp [spriteBits]; omega)]; simp [h]

/-- The pixels of a blit, by sprite row and column. -/
theorem mem_blitPixels (clipping : Bool) (p : Fin 64 × Fin 32) (b : Bool) : ∀ (rows : List Byte) (x0 y0 : Nat),
    (p, b) ∈ blitPixels clipping x0 y0 rows ↔ ∃ row col r, rows[row]? = some r ∧ col < 8 ∧
      b = r.getLsbD (7 - col) ∧ Lands clipping (x0 + col) (y0 + row) p.1 p.2
  | [], _, _ => by simp [blitPixels]
  | r0 :: rows, x0, y0 => by
    rw [blitPixels, List.mem_append, mem_blitPixels clipping p b rows, mem_rowPixels]
    simp only [spriteBits_getElem?]
    constructor
    · rintro (⟨col, ⟨h1, h2⟩, hl⟩ | ⟨row, col, r, h, h1, h2, hl⟩)
      · exact ⟨0, col, r0, rfl, h1, h2, hl⟩
      · exact ⟨row + 1, col, r, h, h1, h2, by rwa [show y0 + (row + 1) = y0 + 1 + row by omega]⟩
    · rintro ⟨row, col, r, h, h1, h2, hl⟩
      cases row with
      | zero => cases h; exact .inl ⟨col, ⟨h1, h2⟩, hl⟩
      | succ row => exact .inr ⟨row, col, r, h, h1, h2, by rwa [show y0 + 1 + row = y0 + (row + 1) by omega]⟩

/-- Two targets less than a width and less than a height apart that land on one cell are one target. -/
theorem lands_inj {c : Bool} {tx ty tx' ty' : Nat} {x : Fin 64} {y : Fin 32} (h : Lands c tx ty x y)
    (h' : Lands c tx' ty' x y) (hx : tx' < tx + 64) (hx' : tx < tx' + 64) (hy : ty' < ty + 32) (hy' : ty < ty' + 32) : tx = tx' ∧ ty = ty' := by
  unfold Lands at h h'
  cases c <;> simp at h h' <;> omega

/-- A row of at most 64 bits writes no cell twice. -/
theorem rowPixels_nodup (c : Bool) : ∀ (bits : List Bool) (tx ty : Nat), bits.length ≤ 64 →
    ((rowPixels c tx ty bits).map (·.1)).Nodup
  | [], _, _, _ => by simp [rowPixels]
  | bit :: bits, tx, ty, h => by
    simp only [List.length_cons] at h
    have ih := rowPixels_nodup c bits (tx + 1) ty (by omega)
    rw [rowPixels]
    cases ht : target c tx ty with
    | none => simpa using ih
    | some p =>
      simp only [Option.map_some, Option.toList_some, List.cons_append, List.nil_append, List.map_cons, List.nodup_cons]
      refine ⟨?_, ih⟩
      intro hm
      obtain ⟨⟨q, b⟩, hq, rfl⟩ := List.mem_map.mp hm
      obtain ⟨col, hc, hl⟩ := (mem_rowPixels c _ _ _ _ _).mp hq
      have hcl := (List.getElem?_eq_some_iff.mp hc).1
      have := lands_inj ((target_some c tx ty q.1 q.2).mp ht) hl (by omega) (by omega) (by omega) (by omega)
      omega

/-- A sprite of at most 32 rows writes no cell twice. -/
theorem blitPixels_nodup (c : Bool) : ∀ (rows : List Byte) (x0 y0 : Nat), rows.length ≤ 32 →
    ((blitPixels c x0 y0 rows).map (·.1)).Nodup
  | [], _, _, _ => by simp [blitPixels]
  | r0 :: rows, x0, y0, h => by
    simp only [List.length_cons] at h
    rw [blitPixels, List.map_append, List.nodup_append]
    refine ⟨rowPixels_nodup c _ _ _ (by simp [spriteBits]), blitPixels_nodup c rows _ _ (by omega), ?_⟩
    intro q hq q' hq' e
    subst e
    obtain ⟨⟨q, b⟩, hp, rfl⟩ := List.mem_map.mp hq
    obtain ⟨⟨q', b'⟩, hp', e⟩ := List.mem_map.mp hq'
    obtain rfl : q' = q := e
    obtain ⟨col, hc, hl⟩ := (mem_rowPixels c _ _ _ _ _).mp hp
    have hc1 := ((spriteBits_getElem? _ _ _).mp hc).1
    obtain ⟨row, col', r, hr, hc2, -, hl'⟩ := (mem_blitPixels c _ _ _ _ _).mp hp'
    have hrl := (List.getElem?_eq_some_iff.mp hr).1
    have := lands_inj hl hl' (by omega) (by omega) (by omega) (by omega)
    omega

end Sys2Proof.Machine
end

