-- ==== Sys2Proof/Laws/Exec.lean ====
section
/-! SUPPORT. The operand forms and the flags, once each; and for each instruction that can stop, everything it does when it goes on. The other 28 meanings are a next state by definition. -/

namespace Sys2Proof.Machine

/-! ## Operand forms -/

/-- What a skip does: `pc`, and nothing else. -/
theorem skipIf_eq (c : Bool) (s : State) : skipIf c s = s.setPc (if c then s.pc + 2 else s.pc) := by
  cases c <;> rfl

theorem clearVfFirst_eq (s : State) : clearVfFirst s = s.setRegs (clearVfFirst s).v := by
  unfold clearVfFirst
  split <;> rfl

@[simp] theorem reg_clearVfFirst (s : State) (r : Nibble) :
    (clearVfFirst s).reg r = if s.quirks.vfReset = true ∧ r = vf then 0 else s.reg r := by
  unfold clearVfFirst
  by_cases h : s.quirks.vfReset = true <;> simp [h]

theorem bitwise_eq (f : Byte → Byte → Byte) (x y : Nibble) (s : State) :
    bitwise f x y s = s.setRegs (bitwise f x y s).v := by
  show (clearVfFirst s).setReg x _ = _
  rw [clearVfFirst_eq]
  rfl

@[simp] theorem reg_bitwise (f : Byte → Byte → Byte) (x y r : Nibble) (s : State) : (bitwise f x y s).reg r =
    if r = x then f ((clearVfFirst s).reg x) ((clearVfFirst s).reg y) else (clearVfFirst s).reg r := by
  show ((clearVfFirst s).setReg x _).reg r = _
  rw [State.reg_setReg]

theorem shiftSource_eq (x y : Nibble) (s : State) : shiftSource x y s = s.setRegs (shiftSource x y s).v := by
  unfold shiftSource
  split <;> rfl

/-- The value a shift works on. -/
@[simp] theorem reg_shiftSource (x y r : Nibble) (s : State) : (shiftSource x y s).reg r =
    if r = x ∧ s.quirks.shifting = false then s.reg y else s.reg r := by
  unfold shiftSource
  cases h : s.quirks.shifting <;> simp

@[simp] theorem reg_resultThenFlag (x r : Nibble) (a b : Byte) (s : State) :
    (resultThenFlag x a b s).reg r = if r = vf then b else if r = x then a else s.reg r := by
  simp [resultThenFlag]

@[simp] theorem reg_flagThenResult (x r : Nibble) (a b : Byte) (s : State) :
    (flagThenResult x a b s).reg r = if r = x then a else if r = vf then b else s.reg r := by
  simp [flagThenResult]

theorem resultThenFlag_eq (x : Nibble) (a b : Byte) (s : State) :
    resultThenFlag x a b s = s.setRegs (resultThenFlag x a b s).v := rfl

theorem flagThenResult_eq (x : Nibble) (a b : Byte) (s : State) :
    flagThenResult x a b s = s.setRegs (flagThenResult x a b s).v := rfl

/-! ## Flags -/

theorem flagByte_toNat (b : Bool) : (flagByte b).toNat = if b then 1 else 0 := by
  cases b <;> rfl

@[simp] theorem flagByte_eq_one (b : Bool) : flagByte b = 1 ↔ b = true := by
  cases b <;> decide

/-! ## Keys and timers -/

theorem released_getLsbD (s : State) (k : Nibble) : (released s).getLsbD k.toNat = true ↔
    s.lastKeys.getLsbD k.toNat = true ∧ s.keys.getLsbD k.toNat = false := by
  have := k.isLt
  simp [released, this]

theorem keyBit_getLsbD (k k' : Nibble) : (keyBit k).getLsbD k'.toNat = decide (k' = k) := by
  revert k k'
  decide

theorem countDown_toNat (b : Byte) : (countDown b).toNat = b.toNat - 1 := by
  revert b
  decide

/-! ## The instructions that can stop, where they go on -/

theorem exec_ret_next {s t : State} : exec .ret s = .next t ↔
    ∃ w rest, s.stack = w :: rest ∧ t = (s.setStack rest).setPc w := by
  show execRet s = _ ↔ _
  unfold execRet
  cases h : s.stack with
  | nil => simp [pop_nil h]
  | cons w rest => simp [pop_cons h, eq_comm]

theorem exec_call_next {nnn : Addr12} {s t : State} : exec (.call nnn) s = .next t ↔
    s.config.stackDepth ≠ some s.stack.length ∧ t = (s.setStack (s.pc :: s.stack)).setPc (zext16 nnn) := by
  show execCall nnn s = _ ↔ _
  unfold execCall
  rcases push_cases s s.pc with ⟨h, hp⟩ | ⟨h, hp⟩ <;> simp [hp, h, eq_comm]

theorem exec_ldB_next {x : Nibble} {s t : State} : exec (.ldB x) s = .next t ↔ s.i.toNat ≤ 4093 ∧
    t = s.setMem (Memory.writeRun s.config s.mem s.i.toNat (bcdDigits (s.reg x))) := by
  have hl : (bcdDigits (s.reg x)).length = 3 := rfl
  show finish (writeBytes s s.i (bcdDigits (s.reg x))) = _ ↔ _
  by_cases h : s.i.toNat ≤ 4093
  · rw [writeBytes_ok (by omega)]
    simp [finish, h, eq_comm]
  · rw [writeBytes_error (by rw [bcdDigits]; simp) (by omega)]
    simp [finish, h]

theorem exec_storeRegs_next {x : Nibble} {s t : State} : exec (.storeRegs x) s = .next t ↔
    s.i.toNat + x.toNat ≤ 4095 ∧
    t = (s.setMem (Memory.writeRun s.config s.mem s.i.toNat (s.regsUpTo x))).setI
      (if s.quirks.memory then s.i + zext16 x + 1 else s.i) := by
  have hl := s.regsUpTo_length x
  show execStoreRegs x s = _ ↔ _
  unfold execStoreRegs
  by_cases h : s.i.toNat + x.toNat ≤ 4095
  · rw [writeBytes_ok (by omega)]
    simp only [h, true_and, advanceIndex_eq, Host.Outcome.next.injEq, eq_comm (a := t)]
    rfl
  · rw [writeBytes_error (by intro e; rw [e] at hl; simp at hl) (by omega)]
    simp [h]

theorem exec_loadRegs_next {x : Nibble} {s t : State} : exec (.loadRegs x) s = .next t ↔
    s.i.toNat + x.toNat ≤ 4095 ∧
    t = (s.setRegs (fillRegs s.v 0 ((List.range (x.toNat + 1)).map fun k => s.byteAt (s.i.toNat + k)))).setI
      (if s.quirks.memory then s.i + zext16 x + 1 else s.i) := by
  show execLoadRegs x s = _ ↔ _
  unfold execLoadRegs
  by_cases h : s.i.toNat + x.toNat ≤ 4095
  · rw [readBytes_ok (by omega)]
    simp only [h, true_and, advanceIndex_eq, Host.Outcome.next.injEq, eq_comm (a := t)]
    rfl
  · rw [readBytes_error (by omega) (by omega)]
    simp [h]

/-- The rows of a sprite at I. -/
def spriteRows (s : State) (n : Nibble) : List Byte := (List.range n.toNat).map fun k => s.byteAt (s.i.toNat + k)

theorem exec_drw_next {x y n : Nibble} {s t : State} : exec (.drw x y n) s = .next t ↔
    (n.toNat = 0 ∨ s.i.toNat + n.toNat ≤ 4096) ∧
    t = (s.setScreen (blit s.quirks.clipping s.screen ((s.reg x).toNat % 64) ((s.reg y).toNat % 32)
        (spriteRows s n)).1).setReg vf
      (flagByte (blit s.quirks.clipping s.screen ((s.reg x).toNat % 64) ((s.reg y).toNat % 32)
        (spriteRows s n)).2) := by
  have hv : ∀ (scr : Screen) (b : Byte), ((s.setReg vf 0).setScreen scr).setReg vf b = (s.setScreen scr).setReg vf b := by
    intro scr b
    have : (s.v.set vf.toNat 0 vf.isLt).set vf.toNat b vf.isLt = s.v.set vf.toNat b vf.isLt := by
      apply Vector.ext
      intro j hj
      simp only [Vector.getElem_set]
      split <;> rfl
    show State.setRegs _ _ = State.setRegs _ _
    simp only [State.setRegs, State.setScreen, State.setReg, this]
  show execDrw x y n s = _ ↔ _
  unfold execDrw
  by_cases h : n.toNat = 0
  · rw [show readBytes s s.i n.toNat = .ok (spriteRows s n) by rw [spriteRows, h]; rfl]
    simp only [h, true_or, true_and, hv, Host.Outcome.next.injEq, eq_comm (a := t)]
  · by_cases h2 : s.i.toNat + n.toNat ≤ 4096
    · rw [readBytes_ok h2]
      simp only [h2, or_true, true_and, hv, Host.Outcome.next.injEq, spriteRows, eq_comm (a := t)]
    · rw [readBytes_error (by omega) (by omega)]
      simp [h, h2]

theorem spriteRows_getElem? (s : State) (n : Nibble) (row : Nat) (r : Byte) :
    (spriteRows s n)[row]? = some r ↔ row < n.toNat ∧ r = s.byteAt (s.i.toNat + row) := by
  simp only [spriteRows, List.getElem?_map]
  by_cases h : row < n.toNat
  · simp [h, eq_comm]
  · simp [h]

/-- The pixels DRW writes: one for each sprite row and column that lands. -/
theorem mem_drawPixels (s : State) (c : Bool) (x0 y0 : Nat) (n : Nibble) (p : Fin 64 × Fin 32) (b : Bool) :
    (p, b) ∈ blitPixels c x0 y0 (spriteRows s n) ↔
      ∃ row col, (row < n.toNat ∧ col < 8 ∧ Lands c (x0 + col) (y0 + row) p.1 p.2) ∧ b = spriteBit s row col := by
  rw [mem_blitPixels]
  simp only [spriteRows_getElem?, spriteBit]
  constructor
  · rintro ⟨row, col, r, ⟨h1, rfl⟩, h2, h3, h4⟩
    exact ⟨row, col, ⟨h1, h2, h4⟩, h3⟩
  · rintro ⟨row, col, ⟨h1, h2, h4⟩, h3⟩
    exact ⟨row, col, _, ⟨h1, rfl⟩, h2, h3, h4⟩

theorem spriteRows_length_le (s : State) (n : Nibble) : (spriteRows s n).length ≤ 32 := by
  have := n.isLt
  simp [spriteRows]; omega

/-! ## All instructions at once -/

/-- Every completed instruction is one of eleven updates of the state, so a property of all of them holds of the
state after it. -/
theorem exec_next_cases {i : Instr} {s t : State} (h : exec i s = .next t) (P : State → Prop)
    (pc : ∀ w, P (s.setPc w)) (regs : ∀ v, P (s.setRegs v)) (idx : ∀ w, P (s.setI w))
    (cls : P (s.setScreen ⟨Vector.replicate 32 0, true⟩)) (dt : ∀ b, P (s.setDt b)) (st : ∀ b, P (s.setSt b))
    (stack : ∀ l w, P ((s.setStack l).setPc w)) (mem : ∀ m, P (s.setMem m)) (store : ∀ m w, P ((s.setMem m).setI w))
    (load : ∀ v w, P ((s.setRegs v).setI w)) (draw : ∀ scr v, P ((s.setScreen scr).setRegs v)) : P t := by
  cases i
  case ret => obtain ⟨w, r, -, rfl⟩ := exec_ret_next.mp h; exact stack _ _
  case call => obtain ⟨-, rfl⟩ := exec_call_next.mp h; exact stack _ _
  case ldB => obtain ⟨-, rfl⟩ := exec_ldB_next.mp h; exact mem _
  case storeRegs => obtain ⟨-, rfl⟩ := exec_storeRegs_next.mp h; exact store _ _
  case loadRegs => obtain ⟨-, rfl⟩ := exec_loadRegs_next.mp h; exact load _ _
  case drw => obtain ⟨-, rfl⟩ := exec_drw_next.mp h; exact draw _ _
  case ldKey =>
    simp only [exec, execLdKey] at h
    split at h <;> cases h
    · exact pc _
    · exact regs _
  all_goals cases h
  all_goals first
    | exact pc _ | exact regs _ | exact idx _ | exact cls | exact dt _ | exact st _
    | (rw [skipIf_eq]; exact pc _) | (rw [bitwise_eq]; exact regs _)
    | (rw [flagThenResult_eq, shiftSource_eq]; exact regs _)

/-- What no instruction writes: the host's side, the parameters, the snapshot and the model's own fields. -/
theorem exec_frame {i : Instr} {s t : State} (h : exec i s = .next t) :
    t = { s with v := t.v, i := t.i, pc := t.pc, stack := t.stack, mem := t.mem, disp := t.disp, dirty := t.dirty,
                 dt := t.dt, st := t.st } := by
  refine exec_next_cases h (fun t => t = { s with v := t.v, i := t.i, pc := t.pc, stack := t.stack, mem := t.mem,
                                                  disp := t.disp, dirty := t.dirty, dt := t.dt, st := t.st })
    ?_ ?_ ?_ ?_ ?_ ?_ ?_ ?_ ?_ ?_ ?_ <;> intros <;> rfl

theorem keyCodes_eq_nil (set : BitVec 16) : keyCodes set = [] ↔ set = 0 := by
  constructor
  · intro h
    apply BitVec.eq_of_getLsbD_eq
    intro j hj
    have := (mem_keyCodes (set := set) (k := BitVec.ofNat 4 j)).not.mp (by rw [h]; simp)
    have hm : j % 16 = j := Nat.mod_eq_of_lt hj
    simpa [BitVec.toNat_ofNat, hm] using this
  · rintro rfl
    decide

/-! ## The cycle -/

/-- Everything a completed cycle can be. -/
theorem cycle_cases {s t : State} (h : cycle s = .next t) : s.faulted = false ∧ s.pc.toNat ≤ 4094 ∧
    ((∃ i u, decode (s.wordAt s.pc.toNat) = .ok i ∧ exec i s.advance = .next u ∧ t = u.endCycle .ok) ∨
     (∃ e, decode (s.wordAt s.pc.toNat) = .error e ∧
       t = s.advance.endCycle (.unknownOpcode (s.wordAt s.pc.toNat)))) := by
  unfold cycle at h
  split at h
  · cases h
  · rename_i hf
    have hf : s.faulted = false := by simpa using hf
    by_cases hp : s.pc.toNat ≤ 4094
    · refine ⟨hf, hp, ?_⟩
      rw [fetch_ok hp] at h
      dsimp only at h
      change dispatchWord (s.wordAt s.pc.toNat) s.advance = _ at h
      unfold dispatchWord at h
      split at h
      · rename_i e he
        cases h
        exact .inr ⟨e, he, rfl⟩
      · rename_i i hi
        split at h <;> cases h
        rename_i u hu
        exact .inl ⟨i, u, hi, hu, rfl⟩
    · by_cases h2 : s.pc.toNat = 4095
      · rw [fetch_second h2] at h; cases h
      · rw [fetch_first (by omega)] at h; cases h

/-- Everything a faulting cycle can be. -/
theorem cycle_fault_cases {s : State} {r : Fault} (h : cycle s = .fault r) :
    (s.faulted = true ∧ r = .coreFaulted) ∨
    (s.faulted = false ∧ s.pc.toNat > 4094 ∧ fetch s = .error r) ∨
    (s.faulted = false ∧ s.pc.toNat ≤ 4094 ∧
      ∃ i, decode (s.wordAt s.pc.toNat) = .ok i ∧ exec i s.advance = .fault r) := by
  unfold cycle at h
  split at h
  · rename_i hf
    cases h
    exact .inl ⟨hf, rfl⟩
  · rename_i hf
    have hf : s.faulted = false := by simpa using hf
    by_cases hp : s.pc.toNat ≤ 4094
    · rw [fetch_ok hp] at h
      change dispatchWord (s.wordAt s.pc.toNat) s.advance = _ at h
      unfold dispatchWord at h
      split at h
      · cases h
      · rename_i i hi
        split at h <;> cases h
        rename_i hu
        exact .inr (.inr ⟨hf, hp, i, hi, hu⟩)
    · split at h
      · rename_i e he
        cases h
        exact .inr (.inl ⟨hf, by omega, he⟩)
      · rename_i op ho
        by_cases h2 : s.pc.toNat = 4095
        · rw [fetch_second h2] at ho
          cases ho
        · rw [fetch_first (by omega)] at ho
          cases ho

/-- A cycle that fetches and decodes an instruction which completes. -/
theorem cycle_ok {s u : State} {i : Instr} (hf : s.faulted = false) (hp : s.pc.toNat ≤ 4094)
    (hd : decode (s.wordAt s.pc.toNat) = .ok i) (he : exec i s.advance = .next u) :
    cycle s = .next (u.endCycle .ok) := by
  unfold cycle
  rw [hf, fetch_ok hp]
  show dispatchWord (s.wordAt s.pc.toNat) s.advance = _
  unfold dispatchWord
  rw [hd]
  dsimp only
  rw [he]

/-- The host's way to run the core is the same run. -/
theorem run_core_eq : ∀ (k : Nat) (s : State), Sys2Proof.core.run k s = runSteps k s
  | 0, s => Host.Core.run.eq_1 Sys2Proof.core s
  | k + 1, s => by
    refine (Host.Core.run.eq_2 Sys2Proof.core s k).trans ?_
    rw [runSteps, show Sys2Proof.core.step s = step s from rfl]
    cases step s with
    | next s' => exact run_core_eq k s'
    | fault r => rfl
    | refused r => rfl

/-! ## Memory operations of the host and of the model -/

/-- A load that fits keeps the canonical form of memory. -/
theorem wf_hostLoad {s : State} {bytes : List Byte} (hc : s.config.valid = true)
    (h : Memory.wf s.config s.mem = true) : Memory.wf (hostLoad bytes s).config (hostLoad bytes s).mem = true := by
  simp only [Config.valid, Bool.and_eq_true, decide_eq_true_eq] at hc
  unfold hostLoad
  split
  · exact h
  · exact Memory.wf_writeRun h (by omega)

/-- Placing an instruction keeps the canonical form of memory. -/
theorem wf_withFetchWord {s : State} {nbits w : Nat} (h : Memory.wf s.config s.mem = true) :
    Memory.wf (s.withFetchWord nbits w).config (s.withFetchWord nbits w).mem = true := by
  have hl : ∀ op, (bytesOfWord op).length = 2 := fun _ => rfl
  show Memory.wf (s.storeWordAtPc _).config (s.storeWordAtPc _).mem = true
  unfold State.storeWordAtPc
  split
  · exact Memory.wf_writeRun h (by rw [hl]; omega)
  · exact h

/-- The next fetch reads the placed word. -/
theorem fetch_withFetchWord {s : State} {nbits w : Nat} (h : Memory.wf s.config s.mem = true)
    (hp : s.pc.toNat ≤ 4094) : fetch (s.withFetchWord nbits w) = .ok (BitVec.ofNat 16 (w % 2 ^ nbits)) := by
  generalize ho : BitVec.ofNat 16 (w % 2 ^ nbits) = op
  have hs : s.withFetchWord nbits w = { s.setMem (Memory.writeRun s.config s.mem s.pc.toNat (bytesOfWord op)) with
      faulted := false, schedule := [] } := by
    simp only [State.withFetchWord, State.storeWordAtPc, ho, if_pos hp]
  have hb : ∀ a, (s.withFetchWord nbits w).byteAt a = (s.setMem (Memory.writeRun s.config s.mem s.pc.toNat
      (bytesOfWord op))).byteAt a := by
    rw [hs]
    exact fun _ => rfl
  have hpc : (s.withFetchWord nbits w).pc = s.pc := by rw [hs]; rfl
  rw [fetch_ok (by rw [hpc]; exact hp), hb, hb, hpc, byteAt_writeRun h (by simp [bytesOfWord]; omega),
    byteAt_writeRun h (by simp [bytesOfWord]; omega), if_pos (by simp [bytesOfWord]),
    if_pos (by simp [bytesOfWord])]
  simp only [Nat.sub_self, Nat.add_sub_cancel_left, bytesOfWord, List.getD_cons_zero, List.getD_cons_succ]
  rw [wordOfBytes_bytesOfWord]

end Sys2Proof.Machine
end

