-- ==== Sys2Proof/Laws/PerInstr.lean ====
section
/-! SUPPORT. A family of statements about the instructions as syntax: the word of every instruction selects its own row of the opcode table (spec/30_encoding.md R76, R77). -/

namespace Sys2Proof

theorem wordNNN_mask (t : Nibble) (nnn : Addr12) : wordNNN t nnn &&& 0xF000 = zext16 t <<< 12 := by
  apply BitVec.eq_of_getLsbD_eq; intro i hi
  simp only [wordNNN, zext16, BitVec.getLsbD_and, BitVec.getLsbD_or, BitVec.getLsbD_shiftLeft, BitVec.getLsbD_setWidth]
  interval_cases i <;> simp

theorem wordXNN_mask (t x : Nibble) (nn : Byte) : wordXNN t x nn &&& 0xF000 = zext16 t <<< 12 := by
  apply BitVec.eq_of_getLsbD_eq; intro i hi
  simp only [wordXNN, zext16, BitVec.getLsbD_and, BitVec.getLsbD_or, BitVec.getLsbD_shiftLeft, BitVec.getLsbD_setWidth]
  interval_cases i <;> simp

theorem wordXYN_mask (t x y n : Nibble) : wordXYN t x y n &&& 0xF000 = zext16 t <<< 12 := by
  apply BitVec.eq_of_getLsbD_eq; intro i hi
  simp only [wordXYN, zext16, BitVec.getLsbD_and, BitVec.getLsbD_or, BitVec.getLsbD_shiftLeft, BitVec.getLsbD_setWidth]
  interval_cases i <;> simp

theorem wordXYN_maskN (t x y n : Nibble) : wordXYN t x y n &&& 0xF00F = zext16 t <<< 12 ||| zext16 n := by
  apply BitVec.eq_of_getLsbD_eq; intro i hi
  simp only [wordXYN, zext16, BitVec.getLsbD_and, BitVec.getLsbD_or, BitVec.getLsbD_shiftLeft, BitVec.getLsbD_setWidth]
  interval_cases i <;> simp

theorem wordXNN_maskNN (t x : Nibble) (nn : Byte) : wordXNN t x nn &&& 0xF0FF = zext16 t <<< 12 ||| zext16 nn := by
  apply BitVec.eq_of_getLsbD_eq; intro i hi
  simp only [wordXNN, zext16, BitVec.getLsbD_and, BitVec.getLsbD_or, BitVec.getLsbD_shiftLeft, BitVec.getLsbD_setWidth]
  interval_cases i <;> simp

theorem rowOf_mem (i : Instr) : rowOf i ∈ opcodeTable := by
  cases i <;> simp [rowOf, opcodeTable]

/-- The word of the instruction has its row's match value under its row's mask, and the row is one of the 34. -/
def Laws.SelectsOwnRow.Statement (i : Instr) : Prop :=
  encode i &&& (rowOf i).2 = (rowOf i).1 ∧ rowOf i ∈ opcodeTable

theorem Laws.SelectsOwnRow.cls : Laws.SelectsOwnRow.Statement .cls :=
  ⟨rfl, rowOf_mem _⟩
theorem Laws.SelectsOwnRow.ret : Laws.SelectsOwnRow.Statement .ret :=
  ⟨rfl, rowOf_mem _⟩
theorem Laws.SelectsOwnRow.jp (nnn : Addr12) : Laws.SelectsOwnRow.Statement (.jp nnn) :=
  ⟨((wordNNN_mask _ _).trans rfl), rowOf_mem _⟩
theorem Laws.SelectsOwnRow.call (nnn : Addr12) : Laws.SelectsOwnRow.Statement (.call nnn) :=
  ⟨((wordNNN_mask _ _).trans rfl), rowOf_mem _⟩
theorem Laws.SelectsOwnRow.seImm (x : Nibble) (nn : Byte) : Laws.SelectsOwnRow.Statement (.seImm x nn) :=
  ⟨((wordXNN_mask _ _ _).trans rfl), rowOf_mem _⟩
theorem Laws.SelectsOwnRow.sneImm (x : Nibble) (nn : Byte) : Laws.SelectsOwnRow.Statement (.sneImm x nn) :=
  ⟨((wordXNN_mask _ _ _).trans rfl), rowOf_mem _⟩
theorem Laws.SelectsOwnRow.seReg (x : Nibble) (y : Nibble) : Laws.SelectsOwnRow.Statement (.seReg x y) :=
  ⟨((wordXYN_maskN _ _ _ _).trans rfl), rowOf_mem _⟩
theorem Laws.SelectsOwnRow.sneReg (x : Nibble) (y : Nibble) : Laws.SelectsOwnRow.Statement (.sneReg x y) :=
  ⟨((wordXYN_maskN _ _ _ _).trans rfl), rowOf_mem _⟩
theorem Laws.SelectsOwnRow.ldImm (x : Nibble) (nn : Byte) : Laws.SelectsOwnRow.Statement (.ldImm x nn) :=
  ⟨((wordXNN_mask _ _ _).trans rfl), rowOf_mem _⟩
theorem Laws.SelectsOwnRow.addImm (x : Nibble) (nn : Byte) : Laws.SelectsOwnRow.Statement (.addImm x nn) :=
  ⟨((wordXNN_mask _ _ _).trans rfl), rowOf_mem _⟩
theorem Laws.SelectsOwnRow.ldReg (x : Nibble) (y : Nibble) : Laws.SelectsOwnRow.Statement (.ldReg x y) :=
  ⟨((wordXYN_maskN _ _ _ _).trans rfl), rowOf_mem _⟩
theorem Laws.SelectsOwnRow.orReg (x : Nibble) (y : Nibble) : Laws.SelectsOwnRow.Statement (.orReg x y) :=
  ⟨((wordXYN_maskN _ _ _ _).trans rfl), rowOf_mem _⟩
theorem Laws.SelectsOwnRow.andReg (x : Nibble) (y : Nibble) : Laws.SelectsOwnRow.Statement (.andReg x y) :=
  ⟨((wordXYN_maskN _ _ _ _).trans rfl), rowOf_mem _⟩
theorem Laws.SelectsOwnRow.xorReg (x : Nibble) (y : Nibble) : Laws.SelectsOwnRow.Statement (.xorReg x y) :=
  ⟨((wordXYN_maskN _ _ _ _).trans rfl), rowOf_mem _⟩
theorem Laws.SelectsOwnRow.addReg (x : Nibble) (y : Nibble) : Laws.SelectsOwnRow.Statement (.addReg x y) :=
  ⟨((wordXYN_maskN _ _ _ _).trans rfl), rowOf_mem _⟩
theorem Laws.SelectsOwnRow.sub (x : Nibble) (y : Nibble) : Laws.SelectsOwnRow.Statement (.sub x y) :=
  ⟨((wordXYN_maskN _ _ _ _).trans rfl), rowOf_mem _⟩
theorem Laws.SelectsOwnRow.subn (x : Nibble) (y : Nibble) : Laws.SelectsOwnRow.Statement (.subn x y) :=
  ⟨((wordXYN_maskN _ _ _ _).trans rfl), rowOf_mem _⟩
theorem Laws.SelectsOwnRow.shr (x : Nibble) (y : Nibble) : Laws.SelectsOwnRow.Statement (.shr x y) :=
  ⟨((wordXYN_maskN _ _ _ _).trans rfl), rowOf_mem _⟩
theorem Laws.SelectsOwnRow.shl (x : Nibble) (y : Nibble) : Laws.SelectsOwnRow.Statement (.shl x y) :=
  ⟨((wordXYN_maskN _ _ _ _).trans rfl), rowOf_mem _⟩
theorem Laws.SelectsOwnRow.ldI (nnn : Addr12) : Laws.SelectsOwnRow.Statement (.ldI nnn) :=
  ⟨((wordNNN_mask _ _).trans rfl), rowOf_mem _⟩
theorem Laws.SelectsOwnRow.jpV0 (x : Nibble) (nnn : Addr12) : Laws.SelectsOwnRow.Statement (.jpV0 x nnn) :=
  ⟨((wordNNN_mask _ _).trans rfl), rowOf_mem _⟩
theorem Laws.SelectsOwnRow.rnd (x : Nibble) (nn : Byte) : Laws.SelectsOwnRow.Statement (.rnd x nn) :=
  ⟨((wordXNN_mask _ _ _).trans rfl), rowOf_mem _⟩
theorem Laws.SelectsOwnRow.drw (x : Nibble) (y : Nibble) (n : Nibble) : Laws.SelectsOwnRow.Statement (.drw x y n) :=
  ⟨((wordXYN_mask _ _ _ _).trans rfl), rowOf_mem _⟩
theorem Laws.SelectsOwnRow.skp (x : Nibble) : Laws.SelectsOwnRow.Statement (.skp x) :=
  ⟨((wordXNN_maskNN _ _ _).trans rfl), rowOf_mem _⟩
theorem Laws.SelectsOwnRow.sknp (x : Nibble) : Laws.SelectsOwnRow.Statement (.sknp x) :=
  ⟨((wordXNN_maskNN _ _ _).trans rfl), rowOf_mem _⟩
theorem Laws.SelectsOwnRow.ldKey (x : Nibble) : Laws.SelectsOwnRow.Statement (.ldKey x) :=
  ⟨((wordXNN_maskNN _ _ _).trans rfl), rowOf_mem _⟩
theorem Laws.SelectsOwnRow.ldFromDt (x : Nibble) : Laws.SelectsOwnRow.Statement (.ldFromDt x) :=
  ⟨((wordXNN_maskNN _ _ _).trans rfl), rowOf_mem _⟩
theorem Laws.SelectsOwnRow.ldDt (x : Nibble) : Laws.SelectsOwnRow.Statement (.ldDt x) :=
  ⟨((wordXNN_maskNN _ _ _).trans rfl), rowOf_mem _⟩
theorem Laws.SelectsOwnRow.ldSt (x : Nibble) : Laws.SelectsOwnRow.Statement (.ldSt x) :=
  ⟨((wordXNN_maskNN _ _ _).trans rfl), rowOf_mem _⟩
theorem Laws.SelectsOwnRow.addI (x : Nibble) : Laws.SelectsOwnRow.Statement (.addI x) :=
  ⟨((wordXNN_maskNN _ _ _).trans rfl), rowOf_mem _⟩
theorem Laws.SelectsOwnRow.ldF (x : Nibble) : Laws.SelectsOwnRow.Statement (.ldF x) :=
  ⟨((wordXNN_maskNN _ _ _).trans rfl), rowOf_mem _⟩
theorem Laws.SelectsOwnRow.ldB (x : Nibble) : Laws.SelectsOwnRow.Statement (.ldB x) :=
  ⟨((wordXNN_maskNN _ _ _).trans rfl), rowOf_mem _⟩
theorem Laws.SelectsOwnRow.storeRegs (x : Nibble) : Laws.SelectsOwnRow.Statement (.storeRegs x) :=
  ⟨((wordXNN_maskNN _ _ _).trans rfl), rowOf_mem _⟩
theorem Laws.SelectsOwnRow.loadRegs (x : Nibble) : Laws.SelectsOwnRow.Statement (.loadRegs x) :=
  ⟨((wordXNN_maskNN _ _ _).trans rfl), rowOf_mem _⟩

end Sys2Proof
end

