-- ==== Sys2Proof/Tests/Slice0.lean ====
section
/-! SUPPORT. The model's own tests: the well-formedness check, one decoding per constructor, at most two steps per instruction, and for each obligation with hypotheses states and operands that meet them. Expected results are those of spec/95_test_vectors.md (the vector is named) or computed by hand from the rule named. -/

open Sys2Proof Sys2Proof.Machine

/-! ## Helpers -/

/-- Registers set one after another. -/
def withRegs (rs : List (Nibble × Byte)) (s : State) : State := rs.foldl (fun u p => u.setReg p.1 p.2) s

/-- Bytes stored in memory. -/
def withBytes (a : Nat) (bs : List Byte) (s : State) : State := s.setMem (Memory.writeRun s.config s.mem a bs)

/-- The state after one step of a word placed at `pc`, if the step completes. -/
def stepWord (w : Nat) (s : State) : Option State :=
  match step (s.withFetchWord 16 w) with
  | .next t => some t
  | _ => none

/-- The fault of one step of a word placed at `pc`, if it faults. -/
def faultWord (w : Nat) (s : State) : Option Fault :=
  match step (s.withFetchWord 16 w) with
  | .fault r => some r
  | _ => none

/-- Some registers after one step of a word. -/
def regsAfter (w : Nat) (xs : List Nibble) (s : State) : Option (List Byte) := (stepWord w s).map fun t => xs.map t.reg

/-- `pc` after one step of a word. -/
def pcAfterWord (w : Nat) (s : State) : Option Word := (stepWord w s).map (·.pc)

/-- Bytes of memory after one step of a word, and I. -/
def bytesAfter (w : Nat) (as : List Nat) (s : State) : Option (List Byte × Word) :=
  (stepWord w s).map fun t => (as.map t.byteAt, t.i)

/-- The lit cells of the first, second and last rows after one step of a word, with VF and `dirty`. -/
def screenAfter (w : Nat) (s : State) : Option (List (BitVec 64) × Byte × Bool) :=
  (stepWord w s).map fun t => ([t.disp[0], t.disp[1], t.disp[2], t.disp[31]], t.reg vf, t.dirty)

/-- Whether an outcome is a next state. -/
def goesOn : Host.Outcome State Fault Refusal → Bool
  | .next _ => true
  | _ => false

theorem exists_next {o : Host.Outcome State Fault Refusal} (h : goesOn o = true) : ∃ t, o = .next t := by
  cases o with
  | next t => exact ⟨t, rfl⟩
  | _ => simp [goesOn] at h

/-- Every quirk on. -/
def allQuirks : Quirks := ⟨true, true, true, true, true, true⟩

/-- The reset state with every quirk on. -/
def quirky : State := State.resetWith defaultConfig allQuirks

/-! ## Well-formedness (spec/30_encoding.md R73): the one check, and a term it refuses -/

theorem test_jpV0_with_two_different_x_is_ill_formed : (Instr.jpV0 0x3 0x2A0).wellFormed = false := by decide
theorem test_jpV0_with_its_own_x_is_well_formed : (Instr.jpV0 0x2 0x2A0).wellFormed = true := by decide

/-! ## Decoding: every constructor, words written out from the spec -/

/-- Words of R100 to R108, bit by bit from the encoding lines of those rules. -/
theorem test_decode_control :
    decode 0b0000_0000_1110_1110 = .ok .ret ∧
    decode 0b0001_1010_1011_1100 = .ok (.jp 0xABC) ∧
    decode 0b0010_1010_1011_1100 = .ok (.call 0xABC) ∧
    decode 0b0011_1010_0101_1100 = .ok (.seImm 0xA 0x5C) ∧
    decode 0b0100_1010_0101_1100 = .ok (.sneImm 0xA 0x5C) ∧
    decode 0b0101_1010_0011_0000 = .ok (.seReg 0xA 0x3) ∧
    decode 0b1001_1010_0011_0000 = .ok (.sneReg 0xA 0x3) ∧
    decode 0b1011_0101_1100_1001 = .ok (.jpV0 0x5 0x5C9) := by decide

/-- Words of R120 to R133, bit by bit from the encoding lines of those rules. -/
theorem test_decode_alu :
    decode 0b0110_1010_0101_1100 = .ok (.ldImm 0xA 0x5C) ∧
    decode 0b0111_1010_0101_1100 = .ok (.addImm 0xA 0x5C) ∧
    decode 0b1000_1010_0011_0000 = .ok (.ldReg 0xA 0x3) ∧
    decode 0b1000_1010_0011_0001 = .ok (.orReg 0xA 0x3) ∧
    decode 0b1000_1010_0011_0010 = .ok (.andReg 0xA 0x3) ∧
    decode 0b1000_1010_0011_0011 = .ok (.xorReg 0xA 0x3) ∧
    decode 0b1000_1010_0011_0100 = .ok (.addReg 0xA 0x3) ∧
    decode 0b1000_1010_0011_0101 = .ok (.sub 0xA 0x3) ∧
    decode 0b1000_1010_0011_0110 = .ok (.shr 0xA 0x3) ∧
    decode 0b1000_1010_0011_0111 = .ok (.subn 0xA 0x3) ∧
    decode 0b1000_1010_0011_1110 = .ok (.shl 0xA 0x3) ∧
    decode 0b1100_1010_0101_1100 = .ok (.rnd 0xA 0x5C) := by decide

/-- Words of R140 to R145, bit by bit from the encoding lines of those rules. -/
theorem test_decode_index_memory :
    decode 0b1010_0101_1100_1001 = .ok (.ldI 0x5C9) ∧
    decode 0b1111_1010_0001_1110 = .ok (.addI 0xA) ∧
    decode 0b1111_1010_0010_1001 = .ok (.ldF 0xA) ∧
    decode 0b1111_1010_0011_0011 = .ok (.ldB 0xA) ∧
    decode 0b1111_1010_0101_0101 = .ok (.storeRegs 0xA) ∧
    decode 0b1111_1010_0110_0101 = .ok (.loadRegs 0xA) := by decide

/-- Words of R161, R162, bit by bit from the encoding lines of those rules. -/
theorem test_decode_display :
    decode 0b0000_0000_1110_0000 = .ok .cls ∧
    decode 0b1101_1010_0011_0101 = .ok (.drw 0xA 0x3 0x5) := by decide

/-- Words of R184 to R186, bit by bit from the encoding lines of those rules. -/
theorem test_decode_keypad :
    decode 0b1110_1010_1001_1110 = .ok (.skp 0xA) ∧
    decode 0b1110_1010_1010_0001 = .ok (.sknp 0xA) ∧
    decode 0b1111_1010_0000_1010 = .ok (.ldKey 0xA) := by decide

/-- Words of R201 to R203, bit by bit from the encoding lines of those rules. -/
theorem test_decode_timers :
    decode 0b1111_1010_0000_0111 = .ok (.ldFromDt 0xA) ∧
    decode 0b1111_1010_0001_0101 = .ok (.ldDt 0xA) ∧
    decode 0b1111_1010_0001_1000 = .ok (.ldSt 0xA) := by decide
/-- R79, R80, vector T7b: words next to a row that are no instruction. -/
theorem test_decode_unknown :
    decode 0b0101_1010_1011_0001 = .error (.unknownOpcode 0x5AB1) ∧
    decode 0b0000_0001_0000_0010 = .error (.unknownOpcode 0x0102) ∧
    decode 0b1000_0001_0010_1000 = .error (.unknownOpcode 0x8128) ∧
    decode 0b1110_0001_1001_1111 = .error (.unknownOpcode 0xE19F) ∧
    decode 0b1111_0001_0110_0110 = .error (.unknownOpcode 0xF166) := by decide

/-- The host's two entry points: the decoder on a table word, and the first step after reset. -/
theorem test_table_word : decodeTableWord 16 0x8014 = some (.addReg 0 1) ∧ decodeTableWord 16 0x8018 = none := by decide
theorem test_fetch_word_is_fetched :
    ((stepWord 0x6A5C State.reset).map fun t => (t.reg 0xA, t.report)) = some (0x5C, .ok) := by decide

/-! ## The cycle and the host -/

/-- Vector S3: load [01, 02], then the first cycle fetches 0x0102, unknown, and leaves pc at 0x202. -/
theorem test_load_then_fetch :
    (perform .cycle (applyHost (.load [0x01, 0x02]) State.reset)).map (fun t => (t.pc, t.report)) =
      some (0x202, .unknownOpcode 0x0102) := by decide

/-- Vector I7, R211: a faulting cycle leaves the state before it, with the mark. -/
theorem test_fault_undoes_the_cycle :
    let s := withBytes 0x200 [0xFA, 0x33] (withRegs [(0xA, 255)] { State.reset with i := 0xFFE })
    perform .cycle s = some { s with faulted := true, report := .fault (.memoryOutOfRange 0x1000) } := by decide

/-- Vectors F1 and F3: a fetch beyond memory ends the cycle, and no snapshot is taken. -/
theorem test_fetch_beyond_memory :
    perform .cycle { State.reset with pc := 0xFFF, keys := 2 } =
      some { State.reset with pc := 0xFFF, keys := 2, faulted := true, report := .fault (.memoryOutOfRange 0x1000) } ∧
    perform .cycle { State.reset with pc := 0xFFFF } =
      some { State.reset with pc := 0xFFFF, faulted := true, report := .fault (.memoryOutOfRange 0xFFFF) } := by decide

/-- R243: the capacity is what is left after PROGRAM_BASE, here two bytes. -/
theorem test_load_too_large :
    let s := State.resetWith { defaultConfig with programBase := 0xFFE } Quirks.absent
    applyHost (.load [1, 2, 3]) s = { s with report := .loadTooLarge 3 } ∧
    (applyHost (.load [1, 2]) s).byteAt 0xFFF = 2 := by decide

/-- R200: a tick. -/
theorem test_tick :
    let t := applyHost .tick { State.reset with dt := 1, st := 0 }
    t.dt = 0 ∧ t.st = 0 := by decide

/-! ## Control flow -/

/-- Vector T1. -/
theorem test_ret : (stepWord 0x00EE { State.reset with pc := 0x400, stack := [0x30A, 0x206] }).map
    (fun t => (t.pc, t.stack)) = some (0x30A, [0x206]) := by decide
/-- Vector T2. -/
theorem test_ret_underflow : faultWord 0x00EE State.reset = some .stackUnderflow := by decide
/-- Vector T3. -/
theorem test_jp : pcAfterWord 0x1FFF State.reset = some 0xFFF := by decide
/-- Vector T4. -/
theorem test_call : (stepWord 0x2ABC { State.reset with pc := 0xFFE }).map (fun t => (t.pc, t.stack)) =
    some (0xABC, [0x1000]) := by decide
/-- Vector T4b. -/
theorem test_call_overflow : faultWord 0x2300 { State.resetWith { defaultConfig with stackDepth := some 2 }
    Quirks.absent with stack := [2, 1] } = some (.stackOverflow 0x202) := by decide
/-- Vector T5. -/
theorem test_seImm : pcAfterWord 0x3F01 (withRegs [(0xF, 1)] State.reset) = some 0x204 := by decide
/-- Vector T10. -/
theorem test_seImm_at_the_end : pcAfterWord 0x3000 { State.reset with pc := 0xFFC } = some 0x1000 := by decide
/-- Vector T6. -/
theorem test_sneImm : pcAfterWord 0x4A00 State.reset = some 0x202 := by decide
/-- Vector T7. -/
theorem test_seReg : pcAfterWord 0x5AA0 (withRegs [(0xA, 9)] State.reset) = some 0x204 := by decide
/-- Vector T8. -/
theorem test_sneReg : pcAfterWord 0x9AA0 (withRegs [(0xA, 9)] State.reset) = some 0x202 := by decide
/-- Vector T9. -/
theorem test_jpV0 : pcAfterWord 0xBFFF (withRegs [(0, 0xFF), (0xF, 1)] State.reset) = some 0x10FE := by decide
/-- Vector T9j. -/
theorem test_jpV0_jumping : pcAfterWord 0xBFFF (withRegs [(0, 0xFF), (0xF, 1)] quirky) = some 0x1000 := by decide

/-! ## Registers and arithmetic -/

/-- Vector A1. -/
theorem test_ldImm : regsAfter 0x6FFF [0xE, 0xF] State.reset = some [0, 0xFF] := by decide
/-- Vector A2. -/
theorem test_addImm_vf : regsAfter 0x7FFF [0xF] (withRegs [(0xF, 1)] State.reset) = some [0] := by decide
/-- Vector A3. -/
theorem test_addImm : regsAfter 0x7A01 [0xA, 0xF] (withRegs [(0xA, 0xFF)] State.reset) = some [0, 0] := by decide
/-- Vector A24q. -/
theorem test_ldReg : regsAfter 0x8AF0 [0xA, 0xF] (withRegs [(0xA, 0x55), (0xF, 7)] quirky) = some [7, 7] := by decide
/-- Vector A20. -/
theorem test_orReg : regsAfter 0x8AB1 [0xA, 0xF] (withRegs [(0xA, 0xF0), (0xB, 0x0F), (0xF, 7)] State.reset) =
    some [0xFF, 7] := by decide
/-- Vector A21q. -/
theorem test_orReg_vf_reset : regsAfter 0x8AF1 [0xA, 0xF] (withRegs [(0xA, 0xF0), (0xF, 7)] quirky) =
    some [0xF0, 0] := by decide
/-- Vector A22. -/
theorem test_andReg : regsAfter 0x8FA2 [0xF] (withRegs [(0xA, 0xFF), (0xF, 7)] State.reset) = some [7] := by decide
/-- Vector A22q. -/
theorem test_andReg_vf_reset : regsAfter 0x8FA2 [0xF] (withRegs [(0xA, 0xFF), (0xF, 7)] quirky) = some [0] := by decide
/-- Vector A23. -/
theorem test_xorReg : regsAfter 0x8FA3 [0xF] (withRegs [(0xA, 0x55), (0xF, 7)] State.reset) = some [0x52] := by decide
/-- Vector A23q. -/
theorem test_xorReg_vf_reset : regsAfter 0x8FA3 [0xF] (withRegs [(0xA, 0x55), (0xF, 7)] quirky) = some [0x55] := by
  decide
/-- Vector S1. -/
theorem test_addReg : regsAfter 0x8014 [0, 1, 0xF] (withRegs [(0, 0xF0), (1, 0x20)] State.reset) =
    some [0x10, 0x20, 1] := by decide
/-- Vector A7. -/
theorem test_addReg_vf : regsAfter 0x8FA4 [0xF, 0xA] (withRegs [(0xF, 0xF0), (0xA, 0x20)] State.reset) =
    some [1, 0x20] := by decide
/-- Vector A10. -/
theorem test_sub : regsAfter 0x8AB5 [0xA, 0xB, 0xF] (withRegs [(0xB, 1)] State.reset) = some [0xFF, 1, 0] := by decide
/-- Vector A9. -/
theorem test_sub_equal : regsAfter 0x8AB5 [0xA, 0xB, 0xF] (withRegs [(0xA, 5), (0xB, 5)] State.reset) =
    some [0, 5, 1] := by decide
/-- Vector A13. -/
theorem test_subn : regsAfter 0x8AB7 [0xA, 0xB, 0xF] (withRegs [(0xA, 3), (0xB, 5)] State.reset) =
    some [2, 5, 1] := by decide
/-- Vector A12. -/
theorem test_subn_borrow : regsAfter 0x8AB7 [0xA, 0xB, 0xF] (withRegs [(0xA, 5), (0xB, 3)] State.reset) =
    some [0xFE, 3, 0] := by decide
/-- Vector A15s. -/
theorem test_shr : regsAfter 0x8AB6 [0xA, 0xB, 0xF] (withRegs [(0xA, 0xFF), (0xB, 4)] quirky) =
    some [0x7F, 4, 1] := by decide
/-- Vector A16. -/
theorem test_shr_vf : regsAfter 0x8FA6 [0xF, 0xA] (withRegs [(0xA, 7)] State.reset) = some [3, 7] := by decide
/-- Vector A18. -/
theorem test_shl : regsAfter 0x8ABE [0xA, 0xB, 0xF] (withRegs [(0xA, 1), (0xB, 0x80)] State.reset) =
    some [0, 0x80, 1] := by decide
/-- Vector A19. -/
theorem test_shl_vf : regsAfter 0x8FAE [0xF, 0xA] (withRegs [(0xA, 0xC1)] State.reset) = some [0x82, 0xC1] := by decide
/-- Vector A26, for every free byte. -/
theorem test_rnd : exec (.rnd 0xA 0x00) State.reset = .next (State.reset.setReg 0xA 0) := by
  simp [exec, execRnd]

/-! ## Index and memory -/

/-- Vector I1. -/
theorem test_ldI : (stepWord 0xAFFF State.reset).map (·.i) = some 0x0FFF := by decide
/-- Vector I2. -/
theorem test_addI : (stepWord 0xFA1E (withRegs [(0xA, 1)] { State.reset with i := 0x0FFF })).map
    (fun t => (t.i, t.reg vf)) = some (0x1000, 0) := by decide
/-- Vector I3. -/
theorem test_addI_wraps : (stepWord 0xFA1E (withRegs [(0xA, 2)] { State.reset with i := 0xFFFF })).map
    (fun t => (t.i, t.reg vf)) = some (1, 0) := by decide
/-- Vector I4. -/
theorem test_ldF : (stepWord 0xFA29 (withRegs [(0xA, 0x1A)] State.reset)).map (·.i) = some 0x0082 := by decide
/-- Vector I6. -/
theorem test_ldB : bytesAfter 0xFA33 [0xFFC, 0xFFD, 0xFFE, 0xFFF] (withRegs [(0xA, 255)]
    { State.reset with i := 0xFFD }) = some ([0, 2, 5, 5], 0xFFD) := by decide
/-- Vector I7. -/
theorem test_ldB_beyond : faultWord 0xFA33 (withRegs [(0xA, 255)] { State.reset with i := 0xFFE }) =
    some (.memoryOutOfRange 0x1000) := by decide
/-- Vector I10q. -/
theorem test_storeRegs : bytesAfter 0xF355 [0xFFC, 0xFFD, 0xFFE, 0xFFF] (withRegs [(0, 1), (1, 2), (2, 3), (3, 4),
    (4, 9)] { quirky with i := 0xFFC }) = some ([1, 2, 3, 4], 0x1000) := by decide
/-- Vector I14. -/
theorem test_storeRegs_over_itself : bytesAfter 0xF055 [0x200, 0x201] (withRegs [(0, 0x12)]
    { State.reset with i := 0x200 }) = some ([0x12, 0x55], 0x200) := by decide
/-- Vector I12. -/
theorem test_loadRegs : regsAfter 0xF165 [0, 1, 2] (withRegs [(2, 0x77)] { State.reset with i := 0x050 }) =
    some [0xF0, 0x90, 0x77] := by decide
/-- Vector I13. -/
theorem test_loadRegs_beyond : faultWord 0xF065 { State.reset with i := 0x1000 } = some (.memoryOutOfRange 0x1000) := by
  decide

/-! ## Display. A row is written as its 64 cells, column 0 in bit 0. -/

/-- Vector G9: the cell (4, 3) is turned off, VF stays. -/
theorem test_cls : (stepWord 0x00E0 (withRegs [(0xF, 9)] { State.reset with disp := State.reset.disp.set 3 0x10 })).map
    (fun t => (t.disp, t.dirty, t.reg vf)) = some (Vector.replicate 32 0, true, 9) := by decide
/-- Vector G1: wrapping at both edges. -/
theorem test_drw_wraps : screenAfter 0xD012 (withBytes 0x300 [0xFF, 0x81] (withRegs [(0, 60), (1, 31)]
    { State.reset with i := 0x300 })) =
    some ([0x1000000000000008, 0, 0, 0xF00000000000000F], 0, true) := by decide +kernel
/-- Vector G5: the collision. -/
theorem test_drw_collides : screenAfter 0xD011 (withBytes 0x300 [0xF0]
    { State.reset with i := 0x300, disp := State.reset.disp.set 0 0x28 }) =
    some ([0x27, 0, 0, 0], 1, true) := by decide

/-! ## Keypad and timers -/

/-- Vector K1. -/
theorem test_skp : (stepWord 0xE19E (withRegs [(1, 5)] { State.reset with keys := 0x20 })).map
    (fun t => (t.pc, t.lastKeys)) = some (0x204, 0x20) := by decide
/-- Vector K2. -/
theorem test_skp_above_15 : pcAfterWord 0xE19E (withRegs [(1, 0x15)] { State.reset with keys := 0x20 }) =
    some 0x202 := by decide
/-- Vector K3. -/
theorem test_sknp_above_15 : pcAfterWord 0xE1A1 (withRegs [(1, 0x15)] { State.reset with keys := 0x20 }) =
    some 0x204 := by decide
/-- Vector K6: a press does not complete the wait. -/
theorem test_ldKey_waits : (stepWord 0xF30A (withRegs [(3, 0xAA)] { State.reset with keys := 2 })).map
    (fun t => (t.reg 3, t.pc, t.lastKeys)) = some (0xAA, 0x200, 2) := by decide
/-- Vector K7: key 0 is a key. -/
theorem test_ldKey_release : (stepWord 0xF30A (withRegs [(3, 0xAA)] { State.reset with lastKeys := 1 })).map
    (fun t => (t.reg 3, t.pc, t.lastKeys)) = some (0, 0x202, 0) := by decide
/-- R201. -/
theorem test_ldFromDt : regsAfter 0xFA07 [0xA] { State.reset with dt := 0x3C } = some [0x3C] := by decide
/-- R202. -/
theorem test_ldDt : (stepWord 0xFA15 (withRegs [(0xA, 0x3C)] State.reset)).map (fun t => (t.dt, t.st)) =
    some (0x3C, 0) := by decide
/-- R203. -/
theorem test_ldSt : (stepWord 0xFA18 (withRegs [(0xA, 0x3C)] State.reset)).map (fun t => (t.dt, t.st)) =
    some (0, 0x3C) := by decide

/-! ## Witnesses: for each obligation with hypotheses, states and operands that meet them

The name of a witness is the obligation's, with `witness_` before it. -/

/-- A state that meets the invariant: a finite stack one short of full, a byte in memory. -/
def sample : State :=
  { State.resetWith { defaultConfig with stackDepth := some 2 } Quirks.absent with
    stack := [0x206], mem := [(0x300, 0x80)] }

theorem sample_inv : sample.Inv := by
  refine ⟨by decide, by decide, fun d h => ?_⟩
  have : d = 2 := (Option.some.inj h).symm
  subst this
  decide

/-- The same with I elsewhere. -/
theorem sample_inv_i (w : Word) : ({ sample with i := w } : State).Inv := sample_inv

/-- The state in which the word at `pc` has been placed. -/
def placed (w : Nat) : State := State.reset.withFetchWord 16 w

theorem witness_DecodeOfEncode : (Instr.jpV0 0x2 0x2A0).wellFormed = true ∧ (Instr.drw 0xF 0xF 0xF).wellFormed = true := by
  decide

theorem witness_EncodeOfDecode : decode 0xB2A0 = .ok (.jpV0 0x2 0x2A0) ∧ decode 0xFF65 = .ok (.loadRegs 0xF) := by decide

theorem witness_DecodingFollowsRow :
    ((0x8004, 0xF00F) ∈ opcodeTable ∧ selects 0x8FF4 (0x8004, 0xF00F) = true) ∧
    (∀ r ∈ opcodeTable, selects 0x8008 r = false) ∧ (∀ r ∈ opcodeTable, selects 0x0000 r = false) :=
  ⟨⟨by simp [opcodeTable], by decide⟩, by simp [opcodeTable, selects], by simp [opcodeTable, selects]⟩

theorem witness_UnknownWords_boundaries :
    (decode 0x00DF).isOk = false ∧ (decode 0x00E0).isOk = true ∧ (decode 0x00E1).isOk = false ∧
    (decode 0x0FFF).isOk = false ∧ (decode 0x1000).isOk = true ∧ (decode 0x5FFF).isOk = false ∧
    (decode 0x8007).isOk = true ∧ (decode 0x800D).isOk = false ∧ (decode 0x800E).isOk = true ∧
    (decode 0x800F).isOk = false ∧ (decode 0x9001).isOk = false ∧ (decode 0xE0A0).isOk = false ∧
    (decode 0xF066).isOk = false ∧ (decode 0xFFFF).isOk = false := by decide

theorem witness_Fetch :
    ({ sample with pc := 4094 } : State).pc.toNat ≤ 4094 ∧ ({ sample with pc := 4095 } : State).pc.toNat = 4095 ∧
    ({ sample with pc := 4096 } : State).pc.toNat > 4095 ∧ ({ sample with pc := 65535 } : State).pc.toNat > 4095 := by
  decide

/-- A fetch that faults on its second byte and one that faults on its first, in a core that has not faulted. -/
theorem witness_Fetch_faults :
    sample.faulted = false ∧ sample.schedule = [] ∧
    fetch { sample with pc := 4095 } = .error (.memoryOutOfRange 4096) ∧
    fetch { sample with pc := 65535 } = .error (.memoryOutOfRange 65535) := ⟨rfl, rfl, rfl, rfl⟩

/-- An instruction that goes on, and one that faults. -/
theorem witness_StepRunsTheDecodedInstruction :
    (∃ t, exec (.jp 0xABC) { placed 0x1ABC with pc := (placed 0x1ABC).pc + 2 } = .next t) ∧
    (placed 0x1ABC).schedule = [] ∧ (placed 0x1ABC).faulted = false ∧ (placed 0x1ABC).pc.toNat ≤ 4094 ∧
    decode ((placed 0x1ABC).wordAt (placed 0x1ABC).pc.toNat) = .ok (.jp 0xABC) ∧
    (∃ r, exec .ret { placed 0x00EE with pc := (placed 0x00EE).pc + 2 } = .fault r) ∧
    decode ((placed 0x00EE).wordAt (placed 0x00EE).pc.toNat) = .ok .ret :=
  ⟨⟨_, rfl⟩, by decide, by decide, by decide, by decide, ⟨_, rfl⟩, by decide⟩

theorem witness_Schedule :
    ({ sample with schedule := [] } : State).schedule = [] ∧
    ({ sample with schedule := [.cycle, .cycle] } : State).schedule = .cycle :: [.cycle] ∧
    ({ sample with schedule := [.host .tick, .cycle] } : State).schedule = .host .tick :: [.cycle] :=
  ⟨rfl, rfl, rfl⟩

theorem witness_UnknownOpcode :
    State.reset.schedule = [] ∧ State.reset.faulted = false ∧ State.reset.pc.toNat ≤ 4094 ∧
    decode (State.reset.wordAt State.reset.pc.toNat) = .error (.unknownOpcode (State.reset.wordAt 0x200)) := by decide

theorem witness_FaultUndoesTheCycle :
    (placed 0x00EE).faulted = false ∧ cycle (placed 0x00EE) = .fault .stackUnderflow ∧
    ({ sample with faulted := true } : State).faulted = true := ⟨by decide, rfl, rfl⟩

/-- Stops and completions at the boundary of each row of the table. -/
theorem witness_InstructionsStop :
    faultOf .ret State.reset = some .stackUnderflow ∧ faultOf .ret sample = none ∧
    faultOf (.call 0x300) sample = none ∧ faultOf (.call 0x300) { sample with stack := [1, 2] } ≠ none ∧
    faultOf (.drw 0 0 0) { sample with i := 0xFFFF } = none ∧ faultOf (.drw 0 0 1) { sample with i := 4095 } = none ∧
    faultOf (.drw 0 0 1) { sample with i := 4096 } = some (.memoryOutOfRange 4096) ∧
    faultOf (.ldB 0) { sample with i := 4093 } = none ∧
    faultOf (.ldB 0) { sample with i := 4094 } = some (.memoryOutOfRange 4096) ∧
    faultOf (.storeRegs 0xF) { sample with i := 4080 } = none ∧
    faultOf (.loadRegs 0xF) { sample with i := 4081 } = some (.memoryOutOfRange 4096) ∧
    faultOf (.loadRegs 0) { sample with i := 5000 } = some (.memoryOutOfRange 5000) := by decide

theorem witness_CompletedCycle : (∃ t, cycle State.reset = .next t) ∧ (∀ q, HostOp.tick ≠ .reset q) :=
  ⟨exists_next (by decide), (fun _ h => nomatch h)⟩

theorem witness_CycleLeavesTheHostsSideAlone :
    (∃ t, cycle { placed 0x6A5C with dirty := true } = .next t) ∧
    (∀ x, decode (({ placed 0x6A5C with dirty := true } : State).wordAt 0x200) ≠ .ok (.ldDt x)) ∧
    (∀ x, decode (({ placed 0x6A5C with dirty := true } : State).wordAt 0x200) ≠ .ok (.ldSt x)) := by
  have h : decode (({ placed 0x6A5C with dirty := true } : State).wordAt 0x200) = .ok (.ldImm 0xA 0x5C) := by decide
  refine ⟨exists_next (by decide), fun x hx => ?_, fun x hx => ?_⟩ <;> rw [h] at hx <;> exact nomatch hx

/-- A decoded instruction and an unknown opcode. -/
theorem witness_PcAfter :
    ((∃ t, cycle (placed 0x1FFF) = .next t) ∧ decode ((placed 0x1FFF).wordAt 0x200) = .ok (.jp 0xFFF)) ∧
    ((∃ t, cycle State.reset = .next t) ∧ decode (State.reset.wordAt 0x200) = .error (.unknownOpcode 0)) :=
  ⟨⟨exists_next (by decide), by decide⟩, ⟨exists_next (by decide), by decide⟩⟩

theorem witness_RegistersChange :
    (∃ t, exec (.loadRegs 0xE) sample = .next t) ∧ ¬ writesReg (.loadRegs 0xE) sample.quirks 0xF ∧
    (∃ t, exec (.orReg 1 2) sample = .next t) ∧ ¬ writesReg (.orReg 1 2) sample.quirks vf :=
  ⟨exists_next (by decide), by simp [writesReg], ⟨_, rfl⟩, by simp [writesReg, vf, sample, State.resetWith, Quirks.absent]⟩

theorem witness_MemoryChanges : sample.Inv ∧
    (∃ t, exec (.ldB 0) { sample with i := 4093 } = .next t) ∧ ¬ storesTo (.ldB 0) { sample with i := 4093 } 4092 ∧
    (∃ t, exec (.storeRegs 3) { sample with i := 4000 } = .next t) ∧
    ¬ storesTo (.storeRegs 3) { sample with i := 4000 } 4004 :=
  ⟨sample_inv, exists_next (by decide), by simp [storesTo], exists_next (by decide), by simp [storesTo]⟩

theorem witness_OtherUnits :
    (∃ t, exec (.loadRegs 1) sample = .next t) ∧ sample.quirks.memory = false ∧ Instr.loadRegs 1 ≠ .ret ∧
    (∀ x, Instr.loadRegs 1 ≠ .ldDt x) ∧ (∀ nnn, Instr.loadRegs 1 ≠ .ldI nnn) :=
  ⟨exists_next (by decide), rfl, by decide, (fun _ h => nomatch h), (fun _ h => nomatch h)⟩

/-- Two states that differ and read the same; a cycle that goes on and one that faults. -/
theorem witness_Unreadable :
    (placed 0xF007).readable = ({ placed 0xF007 with dirty := true, st := 9 } : State).readable ∧
    (∃ t, cycle (placed 0xF007) = .next t) ∧ cycle (placed 0x00EE) = .fault .stackUnderflow :=
  ⟨rfl, exists_next (by decide), rfl⟩

theorem witness_Ret : sample.stack = 0x206 :: [] ∧ State.reset.stack = [] := ⟨rfl, rfl⟩

theorem witness_Call :
    sample.config.stackDepth ≠ some sample.stack.length ∧
    ({ sample with stack := [1, 2] } : State).config.stackDepth = some 2 := by decide

theorem witness_NestedCalls :
    (∀ d, ({ sample with stack := [] } : State).config.stackDepth = some d → 0 + 2 ≤ d) ∧
    ({ sample with stack := [0x202] } : State).stack = [0x202] :=
  ⟨fun d h => by rw [← Option.some.inj h], rfl⟩

theorem witness_Skips :
    sample.reg 1 = 0 ∧ sample.reg 1 ≠ 0xFF ∧ sample.reg 1 = sample.reg 2 ∧ (sample.setReg 1 9).reg 1 ≠ (sample.setReg 1 9).reg 2 := by
  decide

theorem witness_ResultsOutsideVf : (0xE : Nibble) ≠ vf := by decide

theorem witness_ReadsSeeTheLastWrite :
    sample.Inv ∧ (4095 : Word).toNat ≤ 4095 ∧ (4096 : Word).toNat > 4095 := ⟨sample_inv, by decide, by decide⟩

theorem witness_Bcd :
    ({ sample with i := 4093 } : State).Inv ∧ ({ sample with i := 4093 } : State).i.toNat ≤ 4093 ∧
    ({ sample with i := 4094 } : State).Inv ∧ ({ sample with i := 4094 } : State).i.toNat > 4093 :=
  ⟨sample_inv_i _, by decide, sample_inv_i _, by decide⟩

theorem witness_StoreAndLoadRegisters :
    ({ sample with i := 4080 } : State).Inv ∧ ({ sample with i := 4080 } : State).i.toNat + (0xF : Nibble).toNat ≤ 4095 ∧
    ({ sample with i := 4081 } : State).i.toNat + (0xF : Nibble).toNat > 4095 ∧
    ({ sample with i := 4095 } : State).i.toNat + (0 : Nibble).toNat ≤ 4095 :=
  ⟨sample_inv_i _, by decide, by decide, by decide⟩

/-- The state between the two instructions: registers and `pc` as they please, I put back. -/
theorem witness_StoreThenLoad :
    let t : State := { sample with i := 0x404 }
    let u : State := { sample with v := Vector.replicate 16 9, pc := 0x202, i := 0x400 }
    u = { t with v := u.v, pc := u.pc, i := 0x400 } := rfl

theorem witness_StoredBytesAreFetched :
    sample.Inv ∧ sample.i.toNat + (1 : Nibble).toNat ≤ 4095 ∧ (1 : Nibble).toNat = (0 : Nibble).toNat + 1 :=
  ⟨sample_inv, by decide, by decide⟩

theorem witness_SetPixel :
    (∃ t, exec .cls { sample with dirty := true } = .next t) ∧ Instr.ret ≠ .cls ∧ (∃ t, exec .ret sample = .next t) ∧
    (∀ x y n, Instr.ret ≠ .drw x y n) :=
  ⟨⟨_, rfl⟩, by decide, ⟨_, rfl⟩, (fun _ _ _ h => nomatch h)⟩

theorem witness_BlitPastTheEdge : (64 ≥ 64 ∨ 0 ≥ 32) ∧ (0 ≥ 64 ∨ 32 ≥ 32) := by decide

theorem witness_Drw :
    ((0 : Nibble).toNat = 0 ∨ ({ sample with i := 0xFFFF } : State).i.toNat + 0 ≤ 4096) ∧
    ((15 : Nibble).toNat = 0 ∨ ({ sample with i := 4081 } : State).i.toNat + 15 ≤ 4096) := by decide

/-- The clauses of DRW: a pixel that is written, at the last cell, and a cell that none is written to. -/
theorem witness_Drw_pixels : Lands true 63 31 63 31 ∧ Lands false 64 32 0 0 ∧ ¬ Lands true 64 31 0 31 := by
  simp [Lands]

theorem witness_DrawingTwice :
    ∃ t, exec (.drw 0 1 1) { sample with i := 0x300 } = .next t ∧
      t = { t with v := t.v, dirty := t.dirty, pc := t.pc } ∧ t.reg 0 = sample.reg 0 ∧ t.reg 1 = sample.reg 1 :=
  ⟨_, exec_drw_next.mpr ⟨.inr (by decide), rfl⟩, rfl, by simp [vf, State.reg], by simp [vf, State.reg]⟩

/-- A pressed key, an unpressed one, and a code above 15. -/
theorem witness_KeySkips :
    let s : State := withRegs [(1, 15), (2, 14), (3, 16)] { sample with keys := 0x8000 }
    ((s.reg 1).toNat < 16 ∧ s.keys.getLsbD (s.reg 1).toNat = true) ∧
    ¬ ((s.reg 2).toNat < 16 ∧ s.keys.getLsbD (s.reg 2).toNat = true) ∧
    ¬ ((s.reg 3).toNat < 16 ∧ s.keys.getLsbD (s.reg 3).toNat = true) := by decide

theorem witness_WaitForKey :
    (∃ k : Nibble, ({ sample with lastKeys := 0x8000 } : State).lastKeys.getLsbD k.toNat = true ∧
      ({ sample with lastKeys := 0x8000 } : State).keys.getLsbD k.toNat = false) ∧
    ¬ ∃ k : Nibble, sample.lastKeys.getLsbD k.toNat = true ∧ sample.keys.getLsbD k.toNat = false :=
  ⟨⟨15, by decide⟩, by decide⟩

theorem witness_Released :
    (∃ t, cycle { sample with keys := 0x8000 } = .next t) ∧
    (∀ op ∈ [HostOp.keyPress 3, .keyRelease 15, .tick], ∀ q, op ≠ .reset q) := by
  refine ⟨exists_next (by decide), fun op h q => ?_⟩
  simp only [List.mem_cons, List.not_mem_nil, or_false] at h
  rcases h with rfl | rfl | rfl <;> exact fun e => nomatch e

theorem witness_WaitGoesOn :
    (placed 0xF30A).schedule = [] ∧ (placed 0xF30A).faulted = false ∧ (placed 0xF30A).pc.toNat ≤ 4094 ∧
    decode ((placed 0xF30A).wordAt (placed 0xF30A).pc.toNat) = .ok (.ldKey 3) ∧ released (placed 0xF30A) = 0 := by decide

theorem witness_ClearDirty :
    (∃ t, cycle { placed 0x6A5C with dirty := true } = .next t) ∧
    ({ placed 0x6A5C with dirty := true } : State).dirty = true := ⟨exists_next (by decide), rfl⟩

theorem witness_HostWrites : (∀ q, HostOp.keyPress 3 ≠ .reset q) ∧ (∀ bytes, HostOp.keyPress 3 ≠ .load bytes) ∧
    HostOp.keyPress 3 ≠ .tick ∧ HostOp.keyPress 3 ≠ .clearDirty ∧ (∀ k, HostOp.tick ≠ .keyPress k) :=
  ⟨(fun _ h => nomatch h), (fun _ h => nomatch h), by decide, by decide, (fun _ h => nomatch h)⟩

/-- An image that just fits, and one byte more. -/
theorem witness_Load :
    sample.Inv ∧ (List.replicate 3584 (0 : Byte)).length ≤ 4096 - sample.config.programBase.toNat ∧
    (List.replicate 3585 (0 : Byte)).length > 4096 - sample.config.programBase.toNat := by
  rw [List.length_replicate, List.length_replicate]
  exact ⟨sample_inv, by decide, by decide⟩

theorem witness_Reset : sample.config.valid = true := by decide

/-- A configuration at the edge of R7's constraint: the font ends where the program begins. -/
theorem witness_ResetMeetsTheInvariant : ({ defaultConfig with programBase := 0x0A0 } : Config).valid = true := by decide

theorem witness_QuirksChange :
    ∃ t, step { sample with schedule := [.host (.reset allQuirks)] } = .next t ∧ t.quirks ≠ sample.quirks :=
  ⟨_, rfl, by decide⟩

theorem witness_EveryStep : sample.Inv ∧ ∃ t, step sample = .next t := ⟨sample_inv, exists_next (by decide)⟩

/-- A sequence with a fault in it. -/
theorem witness_EverySequence :
    sample.Inv ∧ (performAll [.host (.reset allQuirks), .host (.load [0x00, 0xEE]), .cycle, .host .tick,
      .host (.reset allQuirks), .cycle] sample).isSome = true := ⟨sample_inv, by decide⟩

theorem witness_FinalState : (placed 0x1200).OnlyCycles ∧ (placed 0x1200).FinalAt 0x200 := by
  refine ⟨rfl, ?_, ?_, ?_, ?_⟩ <;> decide

theorem witness_UnknownOpcodesEnd : State.reset.OnlyCycles := rfl
end

section
/-! PROOFS. The scope of the machine (spec/00_scope.md): what is next, what the host may write, and the invariant over
every step and every sequence of operations. -/

namespace Sys2Proof.Machine

/-! ## What is next (log 7) -/

theorem step_of_schedule_nil {s : State} (hs : s.schedule = []) : step s = cycle s := by
  rw [step, runScheduled, hs]

theorem step_of_schedule_cycle {s : State} {rest : List Event} (hs : s.schedule = .cycle :: rest) :
    step s = cycle { s with schedule := rest } := by
  rw [step, runScheduled, hs]

theorem step_of_schedule_host {s : State} {op : HostOp} {rest : List Event} (hs : s.schedule = .host op :: rest) :
    step s = .next (applyHost op { s with schedule := rest }) := by
  rw [step, runScheduled, hs]

/-- Everything a step can be. -/
theorem step_cases (s : State) :
    (s.schedule = [] ∧ step s = cycle s) ∨
    (∃ rest, s.schedule = .cycle :: rest ∧ step s = cycle { s with schedule := rest }) ∨
    (∃ op rest, s.schedule = .host op :: rest ∧ step s = .next (applyHost op { s with schedule := rest })) := by
  match hs : s.schedule with
  | [] => exact .inl ⟨rfl, step_of_schedule_nil hs⟩
  | .cycle :: rest => exact .inr (.inl ⟨rest, rfl, step_of_schedule_cycle hs⟩)
  | .host op :: rest => exact .inr (.inr ⟨op, rest, rfl, step_of_schedule_host hs⟩)

/-- Settles O8, by the branches of the schedule. -/
theorem scheduleSaysWhichOperationIsNext : Obligations.ScheduleSaysWhichOperationIsNext :=
  fun _ _ => ⟨step_of_schedule_nil, step_of_schedule_cycle, fun _ => step_of_schedule_host⟩

/-! ## What the host writes (R9, R10) -/

theorem countDown_toNat_le (b : Byte) : (countDown b).toNat ≤ b.toNat := by
  rw [countDown_toNat]; exact Nat.sub_le _ _

/-- A load writes memory and the report, whether it fits or not. -/
theorem hostLoad_frame (bytes : List Byte) (s : State) :
    hostLoad bytes s = { s with mem := (hostLoad bytes s).mem, report := (hostLoad bytes s).report } := by
  unfold hostLoad
  split <;> rfl

theorem applyHost_frame {op : HostOp} (s : State) (hr : ∀ q, op ≠ .reset q) :
    applyHost op s = { s with mem := (applyHost op s).mem, dirty := (applyHost op s).dirty,
                              dt := (applyHost op s).dt, st := (applyHost op s).st,
                              keys := (applyHost op s).keys, report := (applyHost op s).report } := by
  cases op
  case reset q => exact absurd rfl (hr q)
  case load bytes => rw [applyHost, hostLoad_frame]
  all_goals rfl

theorem applyHost_keys {op : HostOp} (s : State) (hr : ∀ q, op ≠ .reset q) (hp : ∀ k, op ≠ .keyPress k)
    (hl : ∀ k, op ≠ .keyRelease k) : (applyHost op s).keys = s.keys := by
  cases op
  case reset q => exact absurd rfl (hr q)
  case keyPress k => exact absurd rfl (hp k)
  case keyRelease k => exact absurd rfl (hl k)
  case load bytes => rw [applyHost, hostLoad_frame]
  all_goals rfl

theorem applyHost_dirty {op : HostOp} (s : State) (hr : ∀ q, op ≠ .reset q) (hc : op ≠ .clearDirty) :
    (applyHost op s).dirty = s.dirty := by
  cases op
  case reset q => exact absurd rfl (hr q)
  case clearDirty => exact absurd rfl hc
  case load bytes => rw [applyHost, hostLoad_frame]
  all_goals rfl

theorem applyHost_timers {op : HostOp} (s : State) (hr : ∀ q, op ≠ .reset q) (ht : op ≠ .tick) :
    (applyHost op s).dt = s.dt ∧ (applyHost op s).st = s.st := by
  cases op
  case reset q => exact absurd rfl (hr q)
  case tick => exact absurd rfl ht
  case load bytes => rw [applyHost, hostLoad_frame]; exact ⟨rfl, rfl⟩
  all_goals exact ⟨rfl, rfl⟩

theorem applyHost_mem {op : HostOp} (s : State) (hr : ∀ q, op ≠ .reset q) (hl : ∀ bytes, op ≠ .load bytes) :
    (applyHost op s).mem = s.mem := by
  cases op
  case reset q => exact absurd rfl (hr q)
  case load bytes => exact absurd rfl (hl bytes)
  all_goals rfl

/-- The only operation of the host besides `reset` that writes `dirty` clears it. -/
theorem applyHost_dirty_eq_or_false {op : HostOp} (s : State) (hr : ∀ q, op ≠ .reset q) :
    (applyHost op s).dirty = s.dirty ∨ (applyHost op s).dirty = false := by
  by_cases hc : op = .clearDirty
  · subst hc; exact .inr rfl
  · exact .inl (applyHost_dirty s hr hc)

/-- The only operation of the host besides `reset` that writes a timer counts it down. -/
theorem applyHost_timers_le {op : HostOp} (s : State) (hr : ∀ q, op ≠ .reset q) :
    (applyHost op s).dt.toNat ≤ s.dt.toNat ∧ (applyHost op s).st.toNat ≤ s.st.toNat := by
  by_cases ht : op = .tick
  · subst ht; exact ⟨countDown_toNat_le _, countDown_toNat_le _⟩
  · obtain ⟨hdt, hst⟩ := applyHost_timers s hr ht
    exact ⟨by rw [hdt], by rw [hst]⟩

/-- Settles O52, one lemma for each part of the state the host may write. -/
theorem hostWritesOnlyItsOwnState : Obligations.HostWritesOnlyItsOwnState := by
  intro op s hr t
  obtain ⟨hdt, hst⟩ := applyHost_timers_le s hr
  exact ⟨applyHost_frame s hr, applyHost_keys s hr, applyHost_dirty s hr, applyHost_dirty_eq_or_false s hr,
    applyHost_timers s hr, hdt, hst, applyHost_mem s hr⟩

/-! ## The invariant over one instruction -/

/-- Everything a completed instruction can do to memory and to the stack: nothing, a pop, a push with room for it, or
a run of writes from I inside memory (spec/10_state.md R27, R28, spec/20_memory.md R56). -/
theorem exec_mem_stack_cases {i : Instr} {s t : State} (h : exec i s = .next t) :
    (t.mem = s.mem ∧ t.stack = s.stack) ∨
    (t.mem = s.mem ∧ ∃ w, s.stack = w :: t.stack) ∨
    (t.mem = s.mem ∧ s.config.stackDepth ≠ some s.stack.length ∧ t.stack = s.pc :: s.stack) ∨
    (t.stack = s.stack ∧ ∃ bs, s.i.toNat + bs.length ≤ 4096 ∧
      t.mem = Memory.writeRun s.config s.mem s.i.toNat bs) := by
  cases i
  case ret => obtain ⟨w, rest, hs, rfl⟩ := exec_ret_next.mp h; exact .inr (.inl ⟨rfl, w, hs⟩)
  case call nnn => obtain ⟨hroom, rfl⟩ := exec_call_next.mp h; exact .inr (.inr (.inl ⟨rfl, hroom, rfl⟩))
  case ldB x =>
    obtain ⟨hi, rfl⟩ := exec_ldB_next.mp h
    have hlen : (bcdDigits (s.reg x)).length = 3 := rfl
    exact .inr (.inr (.inr ⟨rfl, bcdDigits (s.reg x), by omega, rfl⟩))
  case storeRegs x =>
    obtain ⟨hi, rfl⟩ := exec_storeRegs_next.mp h
    have hlen := s.regsUpTo_length x
    exact .inr (.inr (.inr ⟨rfl, s.regsUpTo x, by omega, rfl⟩))
  all_goals left
  case loadRegs => obtain ⟨-, rfl⟩ := exec_loadRegs_next.mp h; exact ⟨rfl, rfl⟩
  case drw => obtain ⟨-, rfl⟩ := exec_drw_next.mp h; exact ⟨rfl, rfl⟩
  case ldKey => simp only [exec, execLdKey] at h; split at h <;> cases h <;> exact ⟨rfl, rfl⟩
  case seImm | sneImm | seReg | sneReg | skp | sknp => cases h; rw [skipIf_eq]; exact ⟨rfl, rfl⟩
  case orReg | andReg | xorReg => cases h; rw [bitwise_eq]; exact ⟨rfl, rfl⟩
  case shr | shl => cases h; rw [flagThenResult_eq, shiftSource_eq]; exact ⟨rfl, rfl⟩
  all_goals cases h; exact ⟨rfl, rfl⟩

theorem exec_config {i : Instr} {s t : State} (h : exec i s = .next t) : t.config = s.config := by
  rw [exec_frame h]

/-- What every instruction keeps; a push has room because it did not overflow, a store is inside memory because it did
not fault. -/
theorem exec_keeps_inv {i : Instr} {s t : State} (hinv : s.Inv) (h : exec i s = .next t) : t.Inv := by
  obtain ⟨hvalid, hwf, hdepth⟩ := hinv
  unfold State.Inv
  rw [exec_config h]
  rcases exec_mem_stack_cases h with ⟨hm, hs⟩ | ⟨hm, w, hs⟩ | ⟨hm, hroom, hs⟩ | ⟨hs, bs, hbs, hm⟩
  · rw [hm, hs]
    exact ⟨hvalid, hwf, hdepth⟩
  · rw [hm]
    refine ⟨hvalid, hwf, fun d hd => ?_⟩
    have := hdepth d hd
    rw [hs, List.length_cons] at this
    omega
  · rw [hm, hs, List.length_cons]
    refine ⟨hvalid, hwf, fun d hd => ?_⟩
    have hne : s.stack.length ≠ d := fun e => hroom (by rw [hd, e])
    have := hdepth d hd
    omega
  · rw [hm, hs]
    exact ⟨hvalid, Memory.wf_writeRun hwf hbs, hdepth⟩

/-! ## The invariant over operations

It speaks of the parameters, memory and the stack alone, so what writes none of them keeps it. -/

@[simp] theorem State.inv_advance (s : State) : s.advance.Inv ↔ s.Inv := Iff.rfl
@[simp] theorem State.inv_endCycle (s : State) (r : Report) : (s.endCycle r).Inv ↔ s.Inv := Iff.rfl
@[simp] theorem State.inv_afterFault (s : State) (r : Fault) : (s.afterFault r).Inv ↔ s.Inv := Iff.rfl
@[simp] theorem State.inv_schedule (s : State) (l : List Event) : ({ s with schedule := l } : State).Inv ↔ s.Inv :=
  Iff.rfl

theorem cycle_keeps_inv {s t : State} (hinv : s.Inv) (h : cycle s = .next t) : t.Inv := by
  obtain ⟨-, -, ⟨i, u, -, hu, rfl⟩ | ⟨e, -, rfl⟩⟩ := cycle_cases h
  · exact (State.inv_endCycle u _).mpr (exec_keeps_inv (s.inv_advance.mpr hinv) hu)
  · simpa using hinv

theorem hostReset_inv {s : State} (q : Quirks) (hvalid : s.config.valid = true) : (hostReset q s).Inv :=
  ⟨hvalid, Memory.wf_nil, fun _ _ => Nat.zero_le _⟩

theorem hostLoad_keeps_inv {s : State} (bytes : List Byte) (hinv : s.Inv) : (hostLoad bytes s).Inv := by
  obtain ⟨hvalid, hwf, hdepth⟩ := hinv
  have hwf' := wf_hostLoad (bytes := bytes) hvalid hwf
  rw [hostLoad_frame] at hwf' ⊢
  exact ⟨hvalid, hwf', hdepth⟩

theorem applyHost_keeps_inv {s : State} (op : HostOp) (hinv : s.Inv) : (applyHost op s).Inv := by
  cases op
  case reset q => exact hostReset_inv q hinv.1
  case load bytes => exact hostLoad_keeps_inv bytes hinv
  all_goals exact hinv

theorem step_keeps_inv {s t : State} (hinv : s.Inv) (h : step s = .next t) : t.Inv := by
  obtain ⟨-, hstep⟩ | ⟨rest, -, hstep⟩ | ⟨op, rest, -, hstep⟩ := step_cases s <;> rw [hstep] at h
  · exact cycle_keeps_inv hinv h
  · exact cycle_keeps_inv ((s.inv_schedule rest).mpr hinv) h
  · cases h
    exact applyHost_keeps_inv op ((s.inv_schedule rest).mpr hinv)

/-- Settles O57: a step is a cycle or a host operation, and each keeps the invariant. -/
theorem everyStepKeepsTheInvariant : Obligations.EveryStepKeepsTheInvariant :=
  fun _ _ => step_keeps_inv

/-- Everything an operation with a state after it can be: a host operation, a cycle that completes, or the first fault
of the core (R211). -/
theorem perform_cases {e : Event} {s t : State} (h : perform e s = some t) :
    (∃ op, e = .host op ∧ t = applyHost op s) ∨ (e = .cycle ∧ cycle s = .next t) ∨
    ∃ r, e = .cycle ∧ s.faulted = false ∧ cycle s = .fault r ∧ t = s.afterFault r := by
  cases e with
  | host op => exact .inl ⟨op, rfl, (Option.some.inj h).symm⟩
  | cycle =>
    right
    rw [perform] at h
    cases hc : cycle s with
    | next s' =>
      rw [hc] at h
      cases h
      exact .inl ⟨rfl, rfl⟩
    | fault r =>
      rw [hc] at h
      cases hf : s.faulted with
      | true => simp [hf] at h
      | false => exact .inr ⟨r, rfl, rfl, rfl, by simpa [hf, eq_comm] using h⟩
    | refused r => simp [hc] at h

theorem perform_keeps_inv {e : Event} {s t : State} (hinv : s.Inv) (h : perform e s = some t) : t.Inv := by
  obtain ⟨op, -, rfl⟩ | ⟨-, hc⟩ | ⟨r, -, -, -, rfl⟩ := perform_cases h
  · exact applyHost_keeps_inv op hinv
  · exact cycle_keeps_inv hinv hc
  · simpa using hinv

/-- What every operation keeps, every sequence of operations keeps. -/
theorem performAll_induction {P : State → Prop} (hP : ∀ {e s t}, P s → perform e s = some t → P t) :
    ∀ {es : List Event} {s t : State}, P s → performAll es s = some t → P t
  | [], _, _, hs, h => Option.some.inj h ▸ hs
  | e :: es, s, t, hs, h => by
    rw [performAll] at h
    split at h
    · cases h
    · rename_i s' hs'
      exact performAll_induction hP (hP hs hs') h

/-- Settles O58, by induction on the sequence. -/
theorem everySequenceOfOperationsKeepsTheInvariant : Obligations.EverySequenceOfOperationsKeepsTheInvariant :=
  fun _ _ _ => performAll_induction perform_keeps_inv

end Sys2Proof.Machine
end

section
/-! PROOFS. The state (spec/10_state.md): what an instruction leaves in `pc`, in the registers and in the other units,
what a step leaves of the quirks, and the fields no instruction can read. -/

namespace Sys2Proof.Machine

/-! ## What no instruction can read (R31, R44, R168)

A meaning may be run on the state itself or on `State.readable` of it: the outcomes differ only in what is hidden. -/

/-- An outcome without what no instruction can read. -/
def readableOutcome : Host.Outcome State Fault Refusal → Host.Outcome State Fault Refusal
  | .next t => .next t.readable
  | .fault r => .fault r
  | .refused r => .refused r

@[simp] theorem readableOutcome_eq_next {o : Host.Outcome State Fault Refusal} {u : State} :
    readableOutcome o = .next u ↔ ∃ t, o = .next t ∧ t.readable = u := by
  cases o <;> simp [readableOutcome]

@[simp] theorem readableOutcome_eq_fault {o : Host.Outcome State Fault Refusal} {r : Fault} :
    readableOutcome o = .fault r ↔ o = .fault r := by
  cases o <;> simp [readableOutcome]

@[simp] theorem readableOutcome_eq_refused {o : Host.Outcome State Fault Refusal} {r : Refusal} :
    readableOutcome o = .refused r ↔ o = .refused r := by
  cases o <;> simp [readableOutcome]

theorem readBytes_readable (s : State) : ∀ (n : Nat) (a : Word), readBytes s.readable a n = readBytes s a n
  | 0, _ => rfl
  | n + 1, a => by
    rw [readBytes, readBytes, readBytes_readable s n]
    rfl

theorem memWrite_readable (s : State) (a : Word) (b : Byte) :
    memWrite s.readable a b = (memWrite s a b).map State.readable := by
  unfold memWrite
  split <;> rfl

theorem writeBytes_readable : ∀ (bs : List Byte) (s : State) (a : Word),
    writeBytes s.readable a bs = (writeBytes s a bs).map State.readable
  | [], _, _ => rfl
  | b :: bs, s, a => by
    rw [writeBytes, writeBytes, memWrite_readable]
    cases memWrite s a b with
    | error r => rfl
    | ok s' => exact writeBytes_readable bs s' (a + 1)

/-- The cells and the collision bit after a sequence of pixels do not depend on `dirty`. -/
theorem setPixels_of_disp_eq : ∀ (ps : List Pixel) {scr scr' : Screen}, scr.disp = scr'.disp →
    (setPixels scr ps).1.disp = (setPixels scr' ps).1.disp ∧ (setPixels scr ps).2 = (setPixels scr' ps).2
  | [], _, _, h => ⟨h, rfl⟩
  | (p, bit) :: ps, scr, scr', h => by
    have hpixel : (setPixel scr p.1 p.2 bit).1.disp = (setPixel scr' p.1 p.2 bit).1.disp := by
      simp only [setPixel, h]
    obtain ⟨hdisp, hhit⟩ := setPixels_of_disp_eq ps hpixel
    refine ⟨hdisp, ?_⟩
    simp only [setPixels, setPixel_hit, h, hhit]

theorem blit_readable (s : State) (c : Bool) (x0 y0 : Nat) (rows : List Byte) :
    (blit c s.readable.screen x0 y0 rows).1.disp = (blit c s.screen x0 y0 rows).1.disp ∧
    (blit c s.readable.screen x0 y0 rows).2 = (blit c s.screen x0 y0 rows).2 := by
  rw [blit_eq, blit_eq]
  exact setPixels_of_disp_eq _ rfl

/-- Two draws of the same cells and the same flag, on a state and on its readable part, read the same. -/
theorem readable_draw {s : State} {scr scr' : Screen} {hit hit' : Bool} (hd : scr'.disp = scr.disp) (hh : hit' = hit) :
    (((s.readable.setReg vf 0).setScreen scr').setReg vf (flagByte hit')).readable =
      (((s.setReg vf 0).setScreen scr).setReg vf (flagByte hit)).readable := by
  subst hh
  simp only [State.readable, State.setReg, State.setRegs, State.setScreen, hd]

theorem clearVfFirst_readable (s : State) : clearVfFirst s.readable = (clearVfFirst s).readable := by
  unfold clearVfFirst
  rw [show s.readable.quirks.vfReset = s.quirks.vfReset from rfl]
  split <;> rfl

theorem shiftSource_readable (x y : Nibble) (s : State) :
    shiftSource x y s.readable = (shiftSource x y s).readable := by
  unfold shiftSource
  rw [show s.readable.quirks.shifting = s.quirks.shifting from rfl]
  split <;> rfl

theorem bitwise_readable (f : Byte → Byte → Byte) (x y : Nibble) (s : State) :
    bitwise f x y s.readable = (bitwise f x y s).readable := by
  rw [bitwise, clearVfFirst_readable]
  rfl

/-- No meaning reads what is hidden. -/
theorem exec_readable (i : Instr) (s : State) : readableOutcome (exec i s.readable) = readableOutcome (exec i s) := by
  cases i
  case ret =>
    show readableOutcome (execRet s.readable) = readableOutcome (execRet s)
    unfold execRet
    cases hs : s.stack with
    | nil => rw [pop_nil hs, pop_nil (s := s.readable) hs]
    | cons w rest => rw [pop_cons hs, pop_cons (s := s.readable) hs]; rfl
  case call nnn =>
    show readableOutcome (execCall nnn s.readable) = readableOutcome (execCall nnn s)
    unfold execCall
    rcases push_cases s s.pc with ⟨hfull, hp⟩ | ⟨hroom, hp⟩
    · rw [hp, show push s.readable s.readable.pc = _ from if_pos hfull]; rfl
    · rw [hp, show push s.readable s.readable.pc = _ from if_neg hroom]; rfl
  case drw x y n =>
    show readableOutcome (execDrw x y n s.readable) = readableOutcome (execDrw x y n s)
    unfold execDrw
    rw [show s.readable.i = s.i from rfl, readBytes_readable]
    cases readBytes s s.i n.toNat with
    | error r => rfl
    | ok rows =>
      obtain ⟨hdisp, hhit⟩ := blit_readable s s.quirks.clipping ((s.reg x).toNat % 64) ((s.reg y).toNat % 32) rows
      exact congrArg Host.Outcome.next (readable_draw hdisp hhit)
  case ldB x =>
    show readableOutcome (finish (writeBytes s.readable s.i (bcdDigits (s.reg x)))) =
      readableOutcome (finish (writeBytes s s.i (bcdDigits (s.reg x))))
    rw [writeBytes_readable]
    cases writeBytes s s.i (bcdDigits (s.reg x)) <;> rfl
  case storeRegs x =>
    show readableOutcome (execStoreRegs x s.readable) = readableOutcome (execStoreRegs x s)
    unfold execStoreRegs
    rw [show s.readable.i = s.i from rfl, show s.readable.regsUpTo x = s.regsUpTo x from rfl, writeBytes_readable]
    cases writeBytes s s.i (s.regsUpTo x) with
    | error r => rfl
    | ok s' => simp only [Except.map, advanceIndex_eq]; rfl
  case loadRegs x =>
    show readableOutcome (execLoadRegs x s.readable) = readableOutcome (execLoadRegs x s)
    unfold execLoadRegs
    rw [show s.readable.i = s.i from rfl, readBytes_readable]
    cases readBytes s s.i (x.toNat + 1) with
    | error r => rfl
    | ok bs => simp only [advanceIndex_eq]; rfl
  case ldKey x =>
    show readableOutcome (execLdKey x s.readable) = readableOutcome (execLdKey x s)
    unfold execLdKey
    rw [show released s.readable = released s from rfl]
    cases keyCodes (released s) <;> rfl
  case seImm | sneImm | seReg | sneReg | skp | sknp =>
    simp only [exec, execSeImm, execSneImm, execSeReg, execSneReg, execSkp, execSknp, skipIf_eq]
    rfl
  case orReg | andReg | xorReg =>
    simp only [exec, execOrReg, execAndReg, execXorReg, bitwise_readable]
    rfl
  case shr | shl =>
    simp only [exec, execShr, execShl, shiftSource_readable]
    rfl
  all_goals rfl

theorem dispatchWord_readable (op : Word) (s : State) :
    readableOutcome (dispatchWord op s.readable) = readableOutcome (dispatchWord op s) := by
  unfold dispatchWord
  cases decode op with
  | error e => rfl
  | ok i =>
    have hexec := exec_readable i s
    dsimp only
    generalize exec i s.readable = o, exec i s = o' at hexec ⊢
    cases o' with
    | next t =>
      obtain ⟨t', rfl, hread⟩ := readableOutcome_eq_next.mp hexec
      exact congrArg (fun u => Host.Outcome.next (u.endCycle .ok).readable) hread
    | fault r => rw [readableOutcome_eq_fault.mp hexec]
    | refused r => rw [readableOutcome_eq_refused.mp hexec]

theorem cycle_readable (s : State) : readableOutcome (cycle s.readable) = readableOutcome (cycle s) := by
  unfold cycle
  rw [show s.readable.faulted = s.faulted from rfl, show fetch s.readable = fetch s from rfl]
  split
  · rfl
  · cases fetch s with
    | error r => rfl
    | ok op => exact dispatchWord_readable op s.advance

/-- Settles O18: the cycle of a state is, up to what is hidden, the cycle of its readable part. -/
theorem dirtySoundAndDisplayWaitAreUnreadable : Obligations.DirtySoundAndDisplayWaitAreUnreadable := by
  intro s s' hread
  have hcycle : readableOutcome (cycle s) = readableOutcome (cycle s') := by
    rw [← cycle_readable s, hread, cycle_readable s']
  refine ⟨fun t ht => ?_, fun r => ?_⟩
  · rw [ht] at hcycle
    obtain ⟨t', ht', h⟩ := readableOutcome_eq_next.mp hcycle.symm
    exact ⟨t', ht', h.symm⟩
  · rw [← readableOutcome_eq_fault, hcycle, readableOutcome_eq_fault]

/-! ## The program counter (R24, R79) -/

/-- A skip leaves `pc` four bytes past the instruction, or two (R107). -/
theorem skipIf_advance_pc {c : Bool} {p : Prop} [Decidable p] (s : State) (h : c = true ↔ p) :
    (skipIf c s.advance).pc = if p then s.pc + 4 else s.pc + 2 := by
  rw [skipIf_eq, State.setPc_pc, State.advance_pc, BitVec.add_assoc]
  exact if_congr h rfl rfl

theorem skipIf_advance_pc_not {c : Bool} {p : Prop} [Decidable p] (s : State) (h : c = true ↔ ¬ p) :
    (skipIf c s.advance).pc = if p then s.pc + 2 else s.pc + 4 :=
  (skipIf_advance_pc s h).trans (ite_not ..)

theorem exec_pc {i : Instr} {s u : State} (h : exec i s.advance = .next u) : u.pc = pcAfter i s := by
  cases i
  case ret => obtain ⟨w, rest, hs, rfl⟩ := exec_ret_next.mp h; rw [pcAfter, ← s.advance_stack, hs]; rfl
  case call => obtain ⟨-, rfl⟩ := exec_call_next.mp h; rfl
  case drw => obtain ⟨-, rfl⟩ := exec_drw_next.mp h; rfl
  case ldB => obtain ⟨-, rfl⟩ := exec_ldB_next.mp h; rfl
  case storeRegs => obtain ⟨-, rfl⟩ := exec_storeRegs_next.mp h; rfl
  case loadRegs => obtain ⟨-, rfl⟩ := exec_loadRegs_next.mp h; rfl
  case ldKey x =>
    have hnil : keyCodes (released s.advance) = [] ↔ s.lastKeys &&& ~~~s.keys = 0 := keyCodes_eq_nil _
    simp only [exec, execLdKey] at h
    split at h <;> rename_i hk <;> cases h
    · rw [pcAfter, if_pos (hnil.mp hk)]
      exact BitVec.add_sub_cancel s.pc 2
    · rw [pcAfter, if_neg fun h0 => by simp [hnil.mpr h0] at hk]
      rfl
  case seImm | seReg => cases h; exact skipIf_advance_pc s decide_eq_true_iff
  case sneImm | sneReg => cases h; exact skipIf_advance_pc_not s decide_eq_true_iff
  case skp => cases h; exact skipIf_advance_pc s Iff.rfl
  case sknp => cases h; exact skipIf_advance_pc_not s Bool.not_iff_not
  case orReg | andReg | xorReg => cases h; rw [bitwise_eq]; rfl
  case shr | shl => cases h; rw [flagThenResult_eq, shiftSource_eq]; rfl
  all_goals cases h; rfl

/-- Settles O14: the word at `pc` decides between the table and the advance alone. -/
theorem pcAfterEachInstruction : Obligations.PcAfterEachInstruction := by
  intro s t _ h
  obtain ⟨-, -, ⟨i, u, hi, hu, rfl⟩ | ⟨e, he, rfl⟩⟩ := cycle_cases h
  · refine ⟨fun i' hi' => ?_, fun e' he' => ?_⟩
    · obtain rfl : i = i' := Except.ok.inj (hi.symm.trans hi')
      exact (State.endCycle_pc ..).trans (exec_pc hu)
    · rw [hi] at he'; cases he'
  · refine ⟨fun i' hi' => ?_, fun _ _ => rfl⟩
    rw [he] at hi'; cases hi'

/-! ## The registers (R21, R22, R41) -/

theorem reg_setReg_other {s : State} {x r : Nibble} {b : Byte} (hx : r ≠ x) : (s.setReg x b).reg r = s.reg r := by
  rw [State.reg_setReg, if_neg hx]

/-- OR, AND and XOR write VX, and VF only under `vf_reset`. -/
theorem reg_bitwise_other {f : Byte → Byte → Byte} {x y r : Nibble} {s : State} (hx : r ≠ x)
    (hvf : ¬ (s.quirks.vfReset = true ∧ r = vf)) : (bitwise f x y s).reg r = s.reg r := by
  rw [reg_bitwise, if_neg hx, reg_clearVfFirst, if_neg hvf]

theorem reg_resultThenFlag_other {x r : Nibble} {a b : Byte} {s : State} (hx : r ≠ x) (hvf : r ≠ vf) :
    (resultThenFlag x a b s).reg r = s.reg r := by
  rw [reg_resultThenFlag, if_neg hvf, if_neg hx]

/-- A shift writes VX and VF, the copy of VY included. -/
theorem reg_flagThenResult_shiftSource_other {x y r : Nibble} {a b : Byte} {s : State} (hx : r ≠ x) (hvf : r ≠ vf) :
    (flagThenResult x a b (shiftSource x y s)).reg r = s.reg r := by
  rw [reg_flagThenResult, if_neg hx, if_neg hvf, reg_shiftSource, if_neg fun h => hx h.1]

/-- A fill from V0 leaves the registers past its end. -/
theorem reg_fillRegs_other {s : State} {bs : List Byte} {r : Nibble} (hr : bs.length ≤ r.toNat) :
    (s.setRegs (fillRegs s.v 0 bs)).reg r = s.reg r := by
  refine (fillRegs_getElem bs s.v 0 r.toNat r.isLt).trans (if_neg ?_)
  omega

theorem exec_reg_other {i : Instr} {s t : State} {r : Nibble} (h : exec i s = .next t)
    (hw : ¬ writesReg i s.quirks r) : t.reg r = s.reg r := by
  cases i
  case ldImm | addImm | ldReg | rnd | ldFromDt => cases h; exact reg_setReg_other hw
  case ldKey =>
    simp only [exec, execLdKey] at h
    split at h <;> cases h
    · rfl
    · exact reg_setReg_other hw
  case orReg | andReg | xorReg =>
    obtain ⟨hx, hvf⟩ := not_or.mp hw
    cases h
    exact reg_bitwise_other hx hvf
  case addReg | sub | subn =>
    obtain ⟨hx, hvf⟩ := not_or.mp hw
    cases h
    exact reg_resultThenFlag_other hx hvf
  case shr | shl =>
    obtain ⟨hx, hvf⟩ := not_or.mp hw
    cases h
    exact reg_flagThenResult_shiftSource_other hx hvf
  case drw => obtain ⟨-, rfl⟩ := exec_drw_next.mp h; exact reg_setReg_other hw
  case loadRegs x =>
    obtain ⟨-, rfl⟩ := exec_loadRegs_next.mp h
    rw [State.reg_setI]
    refine reg_fillRegs_other ?_
    rw [List.length_map, List.length_range]
    exact Nat.not_le.mp hw
  case ret => obtain ⟨w, rest, -, rfl⟩ := exec_ret_next.mp h; rfl
  case call => obtain ⟨-, rfl⟩ := exec_call_next.mp h; rfl
  case ldB => obtain ⟨-, rfl⟩ := exec_ldB_next.mp h; rfl
  case storeRegs => obtain ⟨-, rfl⟩ := exec_storeRegs_next.mp h; rfl
  case seImm | sneImm | seReg | sneReg | skp | sknp => cases h; rw [skipIf_eq]; rfl
  all_goals cases h; rfl

/-- Settles O15, instruction by instruction. -/
theorem registersChangeOnlyByTheirWriters : Obligations.RegistersChangeOnlyByTheirWriters :=
  fun _ _ _ _ => exec_reg_other

/-! ## The other units (R25, R26, R29, R30, R31) -/

/-- The instructions that may write I: the last two only under `memory` (R25). -/
def writesI (i : Instr) (q : Quirks) : Prop :=
  (∃ nnn, i = .ldI nnn) ∨ (∃ x, i = .addI x) ∨ (∃ x, i = .ldF x) ∨
    (q.memory = true ∧ ∃ x, i = .storeRegs x ∨ i = .loadRegs x)

/-- The instructions that write the stack (R26). -/
def writesStack (i : Instr) : Prop := i = .ret ∨ ∃ nnn, i = .call nnn

/-- The instructions that write the display or `dirty` (R30, R31). -/
def writesScreen (i : Instr) : Prop := i = .cls ∨ ∃ x y n, i = .drw x y n

/-- Everything a completed instruction can write besides registers, `pc` and memory: nothing, or one unit of which it
is a writer. -/
theorem exec_unit_cases {i : Instr} {s t : State} (h : exec i s = .next t) :
    t = { s with v := t.v, pc := t.pc, mem := t.mem } ∨
    (writesI i s.quirks ∧ t = { s with v := t.v, mem := t.mem, i := t.i }) ∨
    (writesStack i ∧ t = { s with pc := t.pc, stack := t.stack }) ∨
    (writesScreen i ∧ t = { s with v := t.v, disp := t.disp, dirty := t.dirty }) ∨
    ((∃ x, i = .ldDt x) ∧ t = { s with dt := t.dt }) ∨ ((∃ x, i = .ldSt x) ∧ t = { s with st := t.st }) := by
  cases i
  case ldI nnn => cases h; exact .inr (.inl ⟨.inl ⟨nnn, rfl⟩, rfl⟩)
  case addI x => cases h; exact .inr (.inl ⟨.inr (.inl ⟨x, rfl⟩), rfl⟩)
  case ldF x => cases h; exact .inr (.inl ⟨.inr (.inr (.inl ⟨x, rfl⟩)), rfl⟩)
  case storeRegs x =>
    obtain ⟨-, rfl⟩ := exec_storeRegs_next.mp h
    cases hq : s.quirks.memory with
    | false => exact .inl rfl
    | true => exact .inr (.inl ⟨.inr (.inr (.inr ⟨hq, x, .inl rfl⟩)), rfl⟩)
  case loadRegs x =>
    obtain ⟨-, rfl⟩ := exec_loadRegs_next.mp h
    cases hq : s.quirks.memory with
    | false => exact .inl rfl
    | true => exact .inr (.inl ⟨.inr (.inr (.inr ⟨hq, x, .inr rfl⟩)), rfl⟩)
  case ret => obtain ⟨w, rest, -, rfl⟩ := exec_ret_next.mp h; exact .inr (.inr (.inl ⟨.inl rfl, rfl⟩))
  case call nnn => obtain ⟨-, rfl⟩ := exec_call_next.mp h; exact .inr (.inr (.inl ⟨.inr ⟨nnn, rfl⟩, rfl⟩))
  case cls => cases h; exact .inr (.inr (.inr (.inl ⟨.inl rfl, rfl⟩)))
  case drw x y n => obtain ⟨-, rfl⟩ := exec_drw_next.mp h; exact .inr (.inr (.inr (.inl ⟨.inr ⟨x, y, n, rfl⟩, rfl⟩)))
  case ldDt x => cases h; exact .inr (.inr (.inr (.inr (.inl ⟨⟨x, rfl⟩, rfl⟩))))
  case ldSt x => cases h; exact .inr (.inr (.inr (.inr (.inr ⟨⟨x, rfl⟩, rfl⟩))))
  all_goals left
  case ldB => obtain ⟨-, rfl⟩ := exec_ldB_next.mp h; rfl
  case ldKey => simp only [exec, execLdKey] at h; split at h <;> cases h <;> rfl
  case seImm | sneImm | seReg | sneReg | skp | sknp => cases h; rw [skipIf_eq]; rfl
  case orReg | andReg | xorReg => cases h; rw [bitwise_eq]; rfl
  case shr | shl => cases h; rw [flagThenResult_eq, shiftSource_eq]; rfl
  all_goals cases h; rfl

theorem exec_i_other {i : Instr} {s t : State} (h : exec i s = .next t) (hw : ¬ writesI i s.quirks) : t.i = s.i := by
  obtain ht | ⟨hi, -⟩ | ⟨-, ht⟩ | ⟨-, ht⟩ | ⟨-, ht⟩ | ⟨-, ht⟩ := exec_unit_cases h
  case inr.inl => exact absurd hi hw
  all_goals rw [ht]

theorem exec_stack_other {i : Instr} {s t : State} (h : exec i s = .next t) (hw : ¬ writesStack i) :
    t.stack = s.stack := by
  obtain ht | ⟨-, ht⟩ | ⟨hi, -⟩ | ⟨-, ht⟩ | ⟨-, ht⟩ | ⟨-, ht⟩ := exec_unit_cases h
  case inr.inr.inl => exact absurd hi hw
  all_goals rw [ht]

theorem exec_screen_other {i : Instr} {s t : State} (h : exec i s = .next t) (hw : ¬ writesScreen i) :
    t.disp = s.disp ∧ t.dirty = s.dirty := by
  obtain ht | ⟨-, ht⟩ | ⟨-, ht⟩ | ⟨hi, -⟩ | ⟨-, ht⟩ | ⟨-, ht⟩ := exec_unit_cases h
  case inr.inr.inr.inl => exact absurd hi hw
  all_goals rw [ht]; exact ⟨rfl, rfl⟩

theorem exec_dt_other {i : Instr} {s t : State} (h : exec i s = .next t) (hw : ∀ x, i ≠ .ldDt x) : t.dt = s.dt := by
  obtain ht | ⟨-, ht⟩ | ⟨-, ht⟩ | ⟨-, ht⟩ | ⟨⟨x, hi⟩, -⟩ | ⟨-, ht⟩ := exec_unit_cases h
  case inr.inr.inr.inr.inl => exact absurd hi (hw x)
  all_goals rw [ht]

theorem exec_st_other {i : Instr} {s t : State} (h : exec i s = .next t) (hw : ∀ x, i ≠ .ldSt x) : t.st = s.st := by
  obtain ht | ⟨-, ht⟩ | ⟨-, ht⟩ | ⟨-, ht⟩ | ⟨-, ht⟩ | ⟨⟨x, hi⟩, -⟩ := exec_unit_cases h
  case inr.inr.inr.inr.inr => exact absurd hi (hw x)
  all_goals rw [ht]

/-- Settles O17, one lemma for each unit, and the frame of every instruction for the fields none writes. -/
theorem otherUnitsChangeOnlyByTheirInstructions : Obligations.OtherUnitsChangeOnlyByTheirInstructions := by
  intro i s t h
  refine ⟨fun hldI haddI hldF hmem => exec_i_other h ?_, fun hret hcall => exec_stack_other h ?_,
    fun hcls hdrw => exec_screen_other h ?_, exec_dt_other h, exec_st_other h, ?_⟩
  · rintro (⟨nnn, hi⟩ | ⟨x, hi⟩ | ⟨x, hi⟩ | ⟨hq, x, hi⟩)
    · exact hldI nnn hi
    · exact haddI x hi
    · exact hldF x hi
    · exact Bool.false_ne_true ((hmem x hi).symm.trans hq)
  · rintro (hi | ⟨nnn, hi⟩)
    · exact hret hi
    · exact hcall nnn hi
  · rintro (hi | ⟨x, y, n, hi⟩)
    · exact hcls hi
    · exact hdrw x y n hi
  · rw [exec_frame h]
    exact ⟨rfl, rfl, rfl, rfl, rfl, rfl, rfl, rfl⟩

/-! ## The parameters and the quirks (R38, R39(c)) -/

theorem cycle_config_quirks {s t : State} (h : cycle s = .next t) : t.config = s.config ∧ t.quirks = s.quirks := by
  obtain ⟨-, -, ⟨i, u, -, hu, rfl⟩ | ⟨e, -, rfl⟩⟩ := cycle_cases h
  · rw [State.endCycle_config, State.endCycle_quirks, exec_frame hu]
    exact ⟨rfl, rfl⟩
  · exact ⟨rfl, rfl⟩

theorem applyHost_config (op : HostOp) (s : State) : (applyHost op s).config = s.config := by
  by_cases hr : ∃ q, op = .reset q
  · obtain ⟨q, rfl⟩ := hr; rfl
  · rw [applyHost_frame s fun q hq => hr ⟨q, hq⟩]

/-- Settles O55: a step is a cycle, a reset, or a host operation that leaves the quirks. -/
theorem quirksChangeOnlyByReset : Obligations.QuirksChangeOnlyByReset := by
  intro s t h
  obtain ⟨-, hstep⟩ | ⟨rest, -, hstep⟩ | ⟨op, rest, hs, hstep⟩ := step_cases s <;> rw [hstep] at h
  · obtain ⟨hc, hq⟩ := cycle_config_quirks h
    exact ⟨hc, fun hne => absurd hq hne⟩
  · obtain ⟨hc, hq⟩ := cycle_config_quirks h
    exact ⟨hc, fun hne => absurd hq hne⟩
  · cases h
    refine ⟨applyHost_config op _, fun hne => ?_⟩
    by_cases hr : ∃ q, op = .reset q
    · obtain ⟨q, rfl⟩ := hr
      exact ⟨q, rest, hs, rfl⟩
    · rw [applyHost_frame _ fun q hq => hr ⟨q, hq⟩] at hne
      exact absurd rfl hne

end Sys2Proof.Machine
end

section
/-! PROOFS. Memory (spec/20_memory.md): a read after a write, where an instruction stores, and the fetch, of stored
bytes too. -/

namespace Sys2Proof.Machine

/-! ## One write (R53, R54) -/

/-- A byte after one write, in a state whose memory is in canonical form. -/
theorem byteAt_write {s : State} (hwf : Memory.wf s.config s.mem = true) (a : Nat) (b : Byte) (x : Nat) :
    (s.setMem (Memory.write s.config s.mem a b)).byteAt x = if x = a then b else s.byteAt x :=
  Memory.read_write hwf a b x

theorem setMem_write_inv {s : State} {a : Nat} (b : Byte) (hinv : s.Inv) (ha : a < 4096) :
    (s.setMem (Memory.write s.config s.mem a b)).Inv := by
  obtain ⟨hvalid, hwf, hdepth⟩ := hinv
  exact ⟨hvalid, Memory.wf_write hwf ha, hdepth⟩

/-- Settles O31, by the law of a read after a write. -/
theorem readsSeeTheLastWrite : Obligations.ReadsSeeTheLastWrite := by
  intro s a b hinv
  refine ⟨fun ha => ⟨_, memWrite_ok ha, rfl, setMem_write_inv b hinv (by omega), fun c hc => ?_⟩,
    fun ha => ⟨memWrite_error ha, memRead_error ha⟩⟩
  obtain ⟨-, hwf, -⟩ := hinv
  rw [memRead_ok hc, byteAt_write hwf]
  exact congrArg Except.ok (if_congr BitVec.toNat_inj rfl rfl)

/-! ## Where an instruction stores (R50, R58, R60) -/

/-- A run of writes leaves the bytes outside it. -/
theorem byteAt_writeRun_other {s : State} {a x : Nat} {bs : List Byte} (hwf : Memory.wf s.config s.mem = true)
    (hend : a + bs.length ≤ 4096) (hx : ¬ (a ≤ x ∧ x < a + bs.length)) :
    (s.setMem (Memory.writeRun s.config s.mem a bs)).byteAt x = s.byteAt x := by
  rw [byteAt_writeRun hwf hend, if_neg hx]

theorem exec_byteAt_other {i : Instr} {s t : State} {a : Nat} (hwf : Memory.wf s.config s.mem = true)
    (h : exec i s = .next t) (ha : ¬ storesTo i s a) : t.byteAt a = s.byteAt a := by
  cases i
  case ldB x =>
    obtain ⟨hi, rfl⟩ := exec_ldB_next.mp h
    have hlen : (bcdDigits (s.reg x)).length = 3 := rfl
    rw [storesTo] at ha
    exact byteAt_writeRun_other hwf (by omega) (by omega)
  case storeRegs x =>
    obtain ⟨hi, rfl⟩ := exec_storeRegs_next.mp h
    have hlen := s.regsUpTo_length x
    rw [storesTo] at ha
    rw [State.byteAt_setI]
    exact byteAt_writeRun_other hwf (by omega) (by omega)
  case ret => obtain ⟨w, rest, -, rfl⟩ := exec_ret_next.mp h; rfl
  case call => obtain ⟨-, rfl⟩ := exec_call_next.mp h; rfl
  case drw => obtain ⟨-, rfl⟩ := exec_drw_next.mp h; rfl
  case loadRegs => obtain ⟨-, rfl⟩ := exec_loadRegs_next.mp h; rfl
  case ldKey => simp only [exec, execLdKey] at h; split at h <;> cases h <;> rfl
  case seImm | sneImm | seReg | sneReg | skp | sknp => cases h; rw [skipIf_eq]; rfl
  case orReg | andReg | xorReg => cases h; rw [bitwise_eq]; rfl
  case shr | shl => cases h; rw [flagThenResult_eq, shiftSource_eq]; rfl
  all_goals cases h; rfl

/-- Settles O16, instruction by instruction; the two that store write a run of bytes from I. -/
theorem memoryChangesOnlyWhereStored : Obligations.MemoryChangesOnlyWhereStored := by
  rintro i s t a ⟨-, hwf, -⟩ h ha
  exact exec_byteAt_other hwf h ha

/-! ## The fetch (R52, R55, R62) -/

theorem cycle_fetch_error {s : State} {r : Fault} (hf : s.faulted = false) (h : fetch s = .error r) :
    cycle s = .fault r := by
  rw [cycle, hf, h]
  rfl

/-- Settles O6, by where `pc` lies. -/
theorem fetchIsBigEndianAndBounded : Obligations.FetchIsBigEndianAndBounded := by
  intro s
  refine ⟨fun hpc => ⟨_, fetch_ok hpc, wordOfBytes_toNat _ _⟩, fetch_second, fetch_first, fun r hf h => ?_⟩
  have hcycle : cycle s = .fault r := cycle_fetch_error hf h
  exact ⟨hcycle, fun hs => (step_of_schedule_nil hs).trans hcycle⟩

/-- A fetch from any address that has two bytes, odd ones included. -/
theorem fetch_setPc {s : State} {a : Nat} (ha : a ≤ 4094) :
    fetch (s.setPc (BitVec.ofNat 16 a)) = .ok (s.wordAt a) := by
  have hpc : (s.setPc (BitVec.ofNat 16 a)).pc.toNat = a := by
    rw [State.setPc_pc, BitVec.toNat_ofNat]
    exact Nat.mod_eq_of_lt (by omega)
  rw [fetch_ok (by omega), hpc]
  rfl

/-- LD [I],Vx leaves each of V0 to VX at its place from I on (R144). -/
theorem exec_storeRegs_byteAt {s t : State} {x r : Nibble} (hwf : Memory.wf s.config s.mem = true)
    (h : exec (.storeRegs x) s = .next t) (hr : r.toNat ≤ x.toNat) : t.byteAt (s.i.toNat + r.toNat) = s.reg r := by
  obtain ⟨hi, rfl⟩ := exec_storeRegs_next.mp h
  have hlen := s.regsUpTo_length x
  rw [State.byteAt_setI, byteAt_writeRun hwf (by omega), if_pos (by omega), Nat.add_sub_cancel_left,
    s.regsUpTo_getD x r hr]

/-- Settles O37: the two bytes of the fetch are the places of two adjacent registers. -/
theorem storedBytesAreFetched : Obligations.StoredBytesAreFetched := by
  rintro s x r r' ⟨-, hwf, -⟩ hi hnext hr'
  have hexec := exec_storeRegs_next.mpr ⟨hi, rfl⟩
  refine ⟨_, hexec, (fetch_setPc (by omega)).trans ?_⟩
  rw [State.wordAt, Nat.add_assoc, ← hnext, exec_storeRegs_byteAt hwf hexec hr',
    exec_storeRegs_byteAt hwf hexec (by omega)]

end Sys2Proof.Machine
end

section
/-! PROOFS. The encoding (spec/30_encoding.md): decoding and encoding undo each other, the rows of the opcode table
select what the decoder gives, and the unknown words with their number. -/

namespace Sys2Proof

/-! ## Decoding an encoded instruction (R72, R76, R78) -/

/-- The decoder reads every field of an instruction back from its word. -/
theorem decode_encode {i : Instr} (hwf : i.wellFormed = true) : decode (encode i) = .ok i := by
  cases i
  case jpV0 x nnn =>
    obtain rfl : x = topNibble nnn := of_decide_eq_true hwf
    simp [encode, decode]
  case cls | ret => rfl
  case seReg | sneReg => simp [encode, decode, decodeSkipReg]
  case ldReg | orReg | andReg | xorReg | addReg | sub | subn | shr | shl => simp [encode, decode, decodeAlu]
  case skp | sknp => simp [encode, decode, decodeKeySkip]
  case ldKey | ldFromDt | ldDt | ldSt | addI | ldF | ldB | storeRegs | loadRegs => simp [encode, decode, decodeMisc]
  all_goals simp [encode, decode]

theorem decodeBytes_bytesOfWord {op : Word} {i : Instr} (rest : List Byte) (h : decode op = .ok i) :
    decodeBytes (bytesOfWord op ++ rest) = .ok (i, rest) := by
  simp only [bytesOfWord, List.cons_append, List.nil_append, decodeBytes, wordOfBytes_bytesOfWord, h]

/-- Settles O1: the word is read back field by field, and two bytes are the word they come from. -/
theorem decodeOfEncodeIsTheInstruction : Obligations.DecodeOfEncodeIsTheInstruction :=
  fun _ rest hwf => ⟨decode_encode hwf, decodeBytes_bytesOfWord rest (decode_encode hwf)⟩

/-- Settles O5: the known words are those of their instructions; 8128 has no row. -/
theorem sampleWordsDecode : Obligations.SampleWordsDecode :=
  ⟨decode_encode (i := .ret) rfl, decode_encode (i := .call 0xABC) rfl, decode_encode (i := .seImm 0xF 0x01) rfl,
    decode_encode (i := .subn 0xA 0xB) rfl, decode_encode (i := .jpV0 0x2 0x2A0) rfl,
    decode_encode (i := .drw 1 2 5) rfl, decode_encode (i := .sknp 1) rfl, decode_encode (i := .loadRegs 3) rfl, rfl⟩

/-! ## Encoding a decoded word (R77, R78) -/

theorem wordNNN_of_fieldT {op : Word} {t : Nibble} (hT : (fieldT op).toNat = t.toNat) :
    wordNNN t (fieldNNN op) = op := by
  rw [← BitVec.eq_of_toNat_eq hT, wordNNN_fields]

theorem wordXNN_of_fieldT {op : Word} {t : Nibble} (hT : (fieldT op).toNat = t.toNat) :
    wordXNN t (fieldX op) (fieldNN op) = op := by
  rw [← BitVec.eq_of_toNat_eq hT, wordXNN_fields]

theorem wordXNN_of_fieldT_fieldNN {op : Word} {t : Nibble} {nn : Byte} (hT : (fieldT op).toNat = t.toNat)
    (hNN : (fieldNN op).toNat = nn.toNat) : wordXNN t (fieldX op) nn = op := by
  rw [← BitVec.eq_of_toNat_eq hNN, wordXNN_of_fieldT hT]

theorem wordXYN_of_fieldT {op : Word} {t : Nibble} (hT : (fieldT op).toNat = t.toNat) :
    wordXYN t (fieldX op) (fieldY op) (fieldN op) = op := by
  rw [← BitVec.eq_of_toNat_eq hT, wordXYN_fields]

theorem wordXYN_of_fieldT_fieldN {op : Word} {t n : Nibble} (hT : (fieldT op).toNat = t.toNat)
    (hN : (fieldN op).toNat = n.toNat) : wordXYN t (fieldX op) (fieldY op) n = op := by
  rw [← BitVec.eq_of_toNat_eq hN, wordXYN_of_fieldT hT]

theorem eq_of_fieldT_fieldNNN {op op' : Word} (hT : (fieldT op).toNat = (fieldT op').toNat)
    (hNNN : (fieldNNN op).toNat = (fieldNNN op').toNat) : op = op' := by
  rw [← wordNNN_of_fieldT hT, BitVec.eq_of_toNat_eq hNNN, wordNNN_fields]

/-- In a word, X is the top nibble of NNN (R73). -/
theorem fieldX_eq_topNibble (op : Word) : fieldX op = topNibble (fieldNNN op) := by
  rw [← fieldX_wordNNN (fieldT op), wordNNN_fields]

theorem encode_of_decodeFixed {op : Word} {i : Instr} (hT : (fieldT op).toNat = 0x0) (h : decodeFixed op = .ok i) :
    i.wellFormed = true ∧ encode i = op := by
  unfold decodeFixed at h
  split at h <;> cases h
  · rename_i hNNN; exact ⟨rfl, (eq_of_fieldT_fieldNNN (op' := 0x00E0) hT hNNN).symm⟩
  · rename_i hNNN; exact ⟨rfl, (eq_of_fieldT_fieldNNN (op' := 0x00EE) hT hNNN).symm⟩

theorem encode_of_decodeAlu {op : Word} {i : Instr} (hT : (fieldT op).toNat = 0x8) (h : decodeAlu op = .ok i) :
    i.wellFormed = true ∧ encode i = op := by
  unfold decodeAlu at h
  split at h <;> cases h
  all_goals rename_i hN; exact ⟨rfl, wordXYN_of_fieldT_fieldN hT hN⟩

theorem decodeSkipReg_eq_ok {op : Word} {i j : Instr} (h : decodeSkipReg op j = .ok i) :
    i = j ∧ (fieldN op).toNat = 0 := by
  unfold decodeSkipReg at h
  split at h <;> cases h
  rename_i hN
  exact ⟨rfl, hN⟩

theorem encode_of_decodeKeySkip {op : Word} {i : Instr} (hT : (fieldT op).toNat = 0xE)
    (h : decodeKeySkip op = .ok i) : i.wellFormed = true ∧ encode i = op := by
  unfold decodeKeySkip at h
  split at h <;> cases h
  all_goals rename_i hNN; exact ⟨rfl, wordXNN_of_fieldT_fieldNN hT hNN⟩

theorem encode_of_decodeMisc {op : Word} {i : Instr} (hT : (fieldT op).toNat = 0xF) (h : decodeMisc op = .ok i) :
    i.wellFormed = true ∧ encode i = op := by
  unfold decodeMisc at h
  split at h <;> cases h
  all_goals rename_i hNN; exact ⟨rfl, wordXNN_of_fieldT_fieldNN hT hNN⟩

/-- A word is put together again from the family the decoder found and the fields it read. -/
theorem encode_of_decode {op : Word} {i : Instr} (h : decode op = .ok i) : i.wellFormed = true ∧ encode i = op := by
  unfold decode at h
  split at h
  case h_1 hT => exact encode_of_decodeFixed hT h
  case h_6 hT | h_10 hT =>
    obtain ⟨rfl, hN⟩ := decodeSkipReg_eq_ok h
    exact ⟨rfl, wordXYN_of_fieldT_fieldN hT hN⟩
  case h_9 hT => exact encode_of_decodeAlu hT h
  case h_15 hT => exact encode_of_decodeKeySkip hT h
  case h_16 =>
    have hlt := (fieldT op).isLt
    simp only [imp_false] at *
    exact encode_of_decodeMisc (by omega) h
  case h_12 hT => cases h; exact ⟨decide_eq_true (fieldX_eq_topNibble op), wordNNN_of_fieldT hT⟩
  case h_2 hT | h_3 hT | h_11 hT => cases h; exact ⟨rfl, wordNNN_of_fieldT hT⟩
  case h_14 hT => cases h; exact ⟨rfl, wordXYN_of_fieldT hT⟩
  all_goals rename_i hT; cases h; exact ⟨rfl, wordXNN_of_fieldT hT⟩

/-- Settles O2, by the families of the decoder. -/
theorem encodeOfDecodeIsTheWord : Obligations.EncodeOfDecodeIsTheWord :=
  fun _ _ => encode_of_decode

/-! ## Which words are known (R77, R79, R80) -/

@[simp] theorem fieldT_toNat (op : Word) : (fieldT op).toNat = op.toNat / 4096 := by
  have := op.isLt
  rw [fieldT, BitVec.extractLsb'_toNat, Nat.shiftRight_eq_div_pow]
  omega

@[simp] theorem fieldN_toNat (op : Word) : (fieldN op).toNat = op.toNat % 16 := by
  simp [fieldN, BitVec.extractLsb'_toNat]

@[simp] theorem fieldNN_toNat (op : Word) : (fieldNN op).toNat = op.toNat % 256 := by
  simp [fieldNN, BitVec.extractLsb'_toNat]

@[simp] theorem fieldNNN_toNat (op : Word) : (fieldNNN op).toNat = op.toNat % 4096 := by
  simp [fieldNNN, BitVec.extractLsb'_toNat]

/-- How many low bits of a word of family `t` are fixed by the rows of the table (R75, R77). -/
def codeBits (t : Nat) : Nat :=
  match t with
  | 0x0 => 12
  | 0x5 | 0x8 | 0x9 => 4
  | 0xE | 0xF => 8
  | _ => 0

/-- The values of those bits in the rows of family `t`; where no bit is fixed, the one value there is (R76). -/
def knownCodes (t : Nat) : List Nat :=
  match t with
  | 0x0 => [0x0E0, 0x0EE]
  | 0x5 | 0x9 => [0x0]
  | 0x8 => [0x0, 0x1, 0x2, 0x3, 0x4, 0x5, 0x6, 0x7, 0xE]
  | 0xE => [0x9E, 0xA1]
  | 0xF => [0x07, 0x0A, 0x15, 0x18, 0x1E, 0x29, 0x33, 0x55, 0x65]
  | _ => [0]

/-- The low bits of the word `n` that the table fixes for its family. -/
def codeOf (n : Nat) : Nat := n % 2 ^ codeBits (n / 4096)

/-- The word `n` has a row of the table: its family has a row with its code (R77). -/
def Listed (n : Nat) : Prop := codeOf n ∈ knownCodes (n / 4096)

theorem listed_iff {n t : Nat} (ht : n / 4096 = t) : Listed n ↔ n % 2 ^ codeBits t ∈ knownCodes t := by
  rw [Listed, codeOf, ht]

theorem decodeFixed_eq_error {op : Word} {e : DecodeError} : decodeFixed op = .error e ↔
    e = .unknownOpcode op ∧ op.toNat % 4096 ∉ knownCodes 0x0 := by
  unfold decodeFixed
  split <;> simp_all [knownCodes, eq_comm]

theorem decodeAlu_eq_error {op : Word} {e : DecodeError} : decodeAlu op = .error e ↔
    e = .unknownOpcode op ∧ op.toNat % 16 ∉ knownCodes 0x8 := by
  unfold decodeAlu
  split <;> simp_all [knownCodes, eq_comm]

theorem decodeSkipReg_eq_error {op : Word} {i : Instr} {e : DecodeError} : decodeSkipReg op i = .error e ↔
    e = .unknownOpcode op ∧ op.toNat % 16 ∉ [0x0] := by
  unfold decodeSkipReg
  split <;> simp_all [eq_comm]

theorem decodeKeySkip_eq_error {op : Word} {e : DecodeError} : decodeKeySkip op = .error e ↔
    e = .unknownOpcode op ∧ op.toNat % 256 ∉ knownCodes 0xE := by
  unfold decodeKeySkip
  split <;> simp_all [knownCodes, eq_comm]

theorem decodeMisc_eq_error {op : Word} {e : DecodeError} : decodeMisc op = .error e ↔
    e = .unknownOpcode op ∧ op.toNat % 256 ∉ knownCodes 0xF := by
  unfold decodeMisc
  split <;> simp_all [knownCodes, eq_comm]

/-- A word is unknown, under its own name, exactly when it has no row. -/
theorem decode_eq_error {op : Word} {e : DecodeError} :
    decode op = .error e ↔ e = .unknownOpcode op ∧ ¬ Listed op.toNat := by
  rw [listed_iff (fieldT_toNat op).symm]
  unfold decode
  split
  case h_1 hT => rw [hT]; exact decodeFixed_eq_error
  case h_6 hT | h_10 hT => rw [hT]; exact decodeSkipReg_eq_error
  case h_9 hT => rw [hT]; exact decodeAlu_eq_error
  case h_15 hT => rw [hT]; exact decodeKeySkip_eq_error
  case h_16 =>
    have hlt := (fieldT op).isLt
    simp only [imp_false] at *
    rw [show (fieldT op).toNat = 0xF by omega]
    exact decodeMisc_eq_error
  all_goals rename_i hT; simp [hT, codeBits, knownCodes, Nat.mod_one]

theorem decode_eq_unknownOpcode {op : Word} : decode op = .error (.unknownOpcode op) ↔ ¬ Listed op.toNat := by
  simp [decode_eq_error]

theorem isOk_decode_iff {op : Word} : (decode op).isOk = true ↔ Listed op.toNat := by
  rw [← not_iff_not, ← decode_eq_unknownOpcode]
  cases h : decode op with
  | ok i => simp [Except.isOk, Except.toBool]
  | error e => simp [Except.isOk, Except.toBool, (decode_eq_error.mp h).1]

/-- The words without a row, family by family (R80). -/
theorem not_listed_iff {op : Word} : ¬ Listed op.toNat ↔
    ((op.toNat / 4096 = 0x0 ∧ op ≠ 0x00E0 ∧ op ≠ 0x00EE) ∨
     (op.toNat / 4096 = 0x5 ∧ op.toNat % 16 ≠ 0) ∨
     (op.toNat / 4096 = 0x8 ∧ op.toNat % 16 ∈ [0x8, 0x9, 0xA, 0xB, 0xC, 0xD, 0xF]) ∨
     (op.toNat / 4096 = 0x9 ∧ op.toNat % 16 ≠ 0) ∨
     (op.toNat / 4096 = 0xE ∧ op.toNat % 256 ∉ [0x9E, 0xA1]) ∨
     (op.toNat / 4096 = 0xF ∧ op.toNat % 256 ∉ [0x07, 0x0A, 0x15, 0x18, 0x1E, 0x29, 0x33, 0x55, 0x65])) := by
  have ht : op.toNat / 4096 < 16 := by have := op.isLt; omega
  rw [listed_iff rfl]
  generalize hT : op.toNat / 4096 = t at *
  interval_cases t <;> simp [codeBits, knownCodes, Nat.mod_one]
  · bv_omega
  · omega

/-! ## How many words are unknown (R80) -/

/-- A count over `q` blocks of `m` numbers is the sum of the blocks' counts. -/
theorem countP_range_mul (p : Nat → Bool) (m : Nat) : ∀ q : Nat,
    (List.range (m * q)).countP p = ((List.range q).map fun j => (List.range m).countP fun k => p (m * j + k)).sum
  | 0 => rfl
  | q + 1 => by
    rw [Nat.mul_succ, List.range_add, List.countP_append, countP_range_mul p m q, List.range_succ, List.map_append,
      List.sum_append, List.countP_map]
    simp [Function.comp_def]

/-- A count of residues over `q` whole periods. -/
theorem countP_range_mod (p : Nat → Bool) (m q : Nat) :
    (List.range (m * q)).countP (fun k => p (k % m)) = q * (List.range m).countP p := by
  have hblock : ∀ j, ((List.range m).countP fun k => p ((m * j + k) % m)) = (List.range m).countP p := by
    refine fun j => List.countP_congr fun k hk => ?_
    rw [Nat.mul_add_mod, Nat.mod_eq_of_lt (List.mem_range.mp hk)]
  rw [countP_range_mul, funext hblock, List.map_const', List.sum_replicate, List.length_range, smul_eq_mul]

/-- Of the numbers below `m`, those not among some distinct ones. -/
theorem countP_range_not_mem {m : Nat} {l : List Nat} (hnodup : l.Nodup) (hlt : ∀ c ∈ l, c < m) :
    (List.range m).countP (fun k => decide (k ∉ l)) = m - l.length := by
  have hperm : ((List.range m).filter fun k => decide (k ∈ l)).Perm l := by
    refine (List.perm_ext_iff_of_nodup (List.nodup_range.filter _) hnodup).mpr fun c => ?_
    simpa using hlt c
  have hsplit := List.length_eq_countP_add_countP (fun k => decide (k ∈ l)) (l := List.range m)
  rw [List.countP_eq_length_filter, hperm.length_eq, List.length_range] at hsplit
  simp only [decide_not, Bool.not_eq_true, decide_eq_false_iff_not] at hsplit ⊢
  omega

theorem codeBits_le : ∀ t < 16, codeBits t ≤ 12 := by decide

theorem knownCodes_nodup : ∀ t < 16, (knownCodes t).Nodup := by decide

theorem knownCodes_lt : ∀ t < 16, ∀ c ∈ knownCodes t, c < 2 ^ codeBits t := by decide

/-- Inside a family only the low twelve bits matter. -/
theorem listed_family_iff {t k : Nat} (ht : t < 16) (hk : k < 4096) :
    Listed (4096 * t + k) ↔ k % 2 ^ codeBits t ∈ knownCodes t := by
  have hdvd : 2 ^ codeBits t ∣ 4096 * t := dvd_mul_of_dvd_left (Nat.pow_dvd_pow 2 (codeBits_le t ht)) t
  rw [listed_iff (t := t) (by omega), Nat.add_mod, Nat.mod_eq_zero_of_dvd hdvd, Nat.zero_add, Nat.mod_mod]

/-- The unknown words of one family: all but the known codes, once for each value of the operand bits. -/
theorem countP_unknown_family {t : Nat} (ht : t < 16) :
    ((List.range 4096).countP fun k => !(decode (BitVec.ofNat 16 (4096 * t + k))).isOk) =
      2 ^ (12 - codeBits t) * (2 ^ codeBits t - (knownCodes t).length) := by
  calc _ = (List.range 4096).countP fun k => decide (k % 2 ^ codeBits t ∉ knownCodes t) := by
        refine List.countP_congr fun k hk => ?_
        have hk := List.mem_range.mp hk
        have hword : (BitVec.ofNat 16 (4096 * t + k)).toNat = 4096 * t + k := Nat.mod_eq_of_lt (by omega)
        have hok : (decode (BitVec.ofNat 16 (4096 * t + k))).isOk = true ↔ k % 2 ^ codeBits t ∈ knownCodes t :=
          isOk_decode_iff.trans (by rw [hword, listed_family_iff ht hk])
        rw [decide_eq_true_iff, ← hok, Bool.not_eq_true', Bool.not_eq_true]
    _ = (List.range (2 ^ codeBits t * 2 ^ (12 - codeBits t))).countP
          fun k => decide (k % 2 ^ codeBits t ∉ knownCodes t) := by
        rw [← Nat.pow_add, Nat.add_sub_cancel' (codeBits_le t ht)]
    _ = _ := by
        rw [countP_range_mod (fun k => decide (k ∉ knownCodes t)),
          countP_range_not_mem (knownCodes_nodup t ht) (knownCodes_lt t ht)]

theorem countP_unknown :
    (List.range 65536).countP (fun n => !(decode (BitVec.ofNat 16 n)).isOk) = 21582 := by
  calc _ = ((List.range 16).map fun t => 2 ^ (12 - codeBits t) * (2 ^ codeBits t - (knownCodes t).length)).sum := by
        rw [countP_range_mul _ 4096 16]
        exact congrArg List.sum (List.map_congr_left fun t ht => countP_unknown_family (List.mem_range.mp ht))
    _ = 21582 := by decide

/-- Settles O4: the classes are the families' words without a row, and their number is the sum over the families. -/
theorem unknownWordsAreExactlyTheListed : Obligations.UnknownWordsAreExactlyTheListed :=
  ⟨fun _ => decode_eq_unknownOpcode.trans not_listed_iff, countP_unknown⟩

/-! ## The rows of the table (R76, R77) -/

/-- The mask of every row of family `t`: T and the code bits. -/
def rowMask (t : Nat) : Word := BitVec.ofNat 16 (0xF000 + (2 ^ codeBits t - 1))

theorem mask_of_mem_opcodeTable : ∀ r ∈ opcodeTable, r.2 = rowMask (r.1.toNat / 4096) := by
  simp [opcodeTable, rowMask, codeBits]

theorem listed_of_mem_opcodeTable : ∀ r ∈ opcodeTable, Listed r.1.toNat := by
  simp [opcodeTable, Listed, codeOf, codeBits, knownCodes]

theorem rowMask_family : ∀ t < 16, (rowMask t).toNat / 2 ^ 12 = 2 ^ 4 - 1 := by decide

theorem rowMask_code : ∀ t < 16, (rowMask t).toNat % 2 ^ codeBits t = 2 ^ codeBits t - 1 := by decide

theorem family_and_rowMask (op : Word) {t : Nat} (ht : t < 16) :
    (op &&& rowMask t).toNat / 4096 = op.toNat / 4096 := by
  have hT : op.toNat / 2 ^ 12 < 2 ^ 4 := by have := op.isLt; omega
  rw [BitVec.toNat_and]
  show _ / 2 ^ 12 = _ / 2 ^ 12
  rw [Nat.and_div_two_pow, rowMask_family t ht, Nat.and_two_pow_sub_one_eq_mod, Nat.mod_eq_of_lt hT]

theorem code_and_rowMask (op : Word) {t : Nat} (ht : t < 16) :
    (op &&& rowMask t).toNat % 2 ^ codeBits t = op.toNat % 2 ^ codeBits t := by
  rw [BitVec.toNat_and, Nat.and_mod_two_pow, rowMask_code t ht, Nat.and_two_pow_sub_one_eq_mod, Nat.mod_mod]

/-- A word that selects a row is of the row's family, and the mask is the family's. -/
theorem family_of_selects {op : Word} {r : TableRow} (hr : r ∈ opcodeTable) (h : selects op r = true) :
    r.1.toNat / 4096 = op.toNat / 4096 ∧ op &&& rowMask (op.toNat / 4096) = r.1 := by
  have hsel : op &&& r.2 = r.1 := of_decide_eq_true h
  have hlt : r.1.toNat / 4096 < 16 := by have := r.1.isLt; omega
  rw [mask_of_mem_opcodeTable r hr] at hsel
  have hT : r.1.toNat / 4096 = op.toNat / 4096 := by rw [← family_and_rowMask op hlt, hsel]
  exact ⟨hT, hT ▸ hsel⟩

/-- The rows are disjoint: the family of the word fixes the mask, and the mask the match value. -/
theorem selects_unique {op : Word} {r r' : TableRow} (hr : r ∈ opcodeTable) (hr' : r' ∈ opcodeTable)
    (h : selects op r = true) (h' : selects op r' = true) : r = r' := by
  obtain ⟨hT, hv⟩ := family_of_selects hr h
  obtain ⟨hT', hv'⟩ := family_of_selects hr' h'
  refine Prod.ext (hv.symm.trans hv') ?_
  rw [mask_of_mem_opcodeTable r hr, mask_of_mem_opcodeTable r' hr', hT, hT']

/-- A word that selects a row has the code of the row's match value. -/
theorem listed_of_selects {op : Word} {r : TableRow} (hr : r ∈ opcodeTable) (h : selects op r = true) :
    Listed op.toNat := by
  obtain ⟨hT, hv⟩ := family_of_selects hr h
  have hlt : op.toNat / 4096 < 16 := by have := op.isLt; omega
  have hlisted : Listed r.1.toNat := listed_of_mem_opcodeTable r hr
  rwa [listed_iff hT, ← hv, code_and_rowMask op hlt, ← listed_iff rfl] at hlisted

open Laws.SelectsOwnRow in
/-- The family of `Laws.SelectsOwnRow` as one statement. -/
theorem selectsOwnRow (i : Instr) : Statement i := by
  cases i
  exacts [cls, ret, jp _, call _, seImm _ _, sneImm _ _, seReg _ _, sneReg _ _, ldImm _ _, addImm _ _, ldReg _ _,
    orReg _ _, andReg _ _, xorReg _ _, addReg _ _, sub _ _, subn _ _, shr _ _, shl _ _, ldI _, jpV0 _ _, rnd _ _,
    drw _ _ _, skp _, sknp _, ldKey _, ldFromDt _, ldDt _, ldSt _, addI _, ldF _, ldB _, storeRegs _, loadRegs _]

/-- The word of an instruction selects the row of the instruction. -/
theorem selects_encode (i : Instr) : selects (encode i) (rowOf i) = true := by
  obtain ⟨hmask, -⟩ := selectsOwnRow i
  exact decide_eq_true hmask

theorem exists_decode_of_listed {op : Word} (h : Listed op.toNat) : ∃ i, decode op = .ok i := by
  cases hd : decode op with
  | ok i => exact ⟨i, rfl⟩
  | error e => exact absurd h (decode_eq_error.mp hd).2

/-- A word that decodes selects the row of the instruction it decodes to. -/
theorem selects_of_decode {op : Word} {i : Instr} (h : decode op = .ok i) : selects op (rowOf i) = true := by
  obtain ⟨-, rfl⟩ := encode_of_decode h
  exact selects_encode i

/-- Settles O3: the match value of the row has a row's code, so the word decodes; what it decodes to has a row that the
word selects, and it selects no other. -/
theorem decodingFollowsTheOneMatchingRow : Obligations.DecodingFollowsTheOneMatchingRow := by
  refine ⟨fun _ _ _ => selects_unique, fun op r hr h => ?_, fun op hnone => ?_⟩
  · obtain ⟨i, hi⟩ := exists_decode_of_listed (listed_of_selects hr h)
    exact ⟨i, hi, selects_unique (rowOf_mem i) hr (selects_of_decode hi) h⟩
  · refine decode_eq_unknownOpcode.mpr fun hlisted => ?_
    obtain ⟨i, hi⟩ := exists_decode_of_listed hlisted
    exact Bool.false_ne_true ((hnone _ (rowOf_mem i)).symm.trans (selects_of_decode hi))

end Sys2Proof
end

section
/-! PROOFS. The cycle (spec/30_encoding.md R70, R71): what a step makes of a decoded instruction and of an unknown word,
and what no cycle writes. -/

namespace Sys2Proof.Machine

/-! ## The step on the word at `pc` (R70, R79, R210) -/

/-- A cycle that can fetch dispatches the word at `pc` in the state with `pc` advanced. -/
theorem cycle_eq_dispatchWord {s : State} (hf : s.faulted = false) (hp : s.pc.toNat ≤ 4094) :
    cycle s = dispatchWord (s.wordAt s.pc.toNat) s.advance := by
  rw [cycle, hf, fetch_ok hp]
  rfl

theorem dispatchWord_exec_fault {op : Word} {i : Instr} {s : State} {r : Fault} (hd : decode op = .ok i)
    (he : exec i s = .fault r) : dispatchWord op s = .fault r := by
  unfold dispatchWord
  rw [hd]
  dsimp only
  rw [he]

theorem dispatchWord_unknown {op : Word} {e : DecodeError} (s : State) (hd : decode op = .error e) :
    dispatchWord op s = .next (s.endCycle (.unknownOpcode op)) := by
  rw [dispatchWord, hd]

/-- Settles O7: the cycle dispatches the word at `pc`, and `exec` either completes or faults. -/
theorem stepRunsTheDecodedInstruction : Obligations.StepRunsTheDecodedInstruction := by
  intro s i hs hf hp hd
  rw [step_of_schedule_nil hs]
  exact ⟨fun t ht => cycle_ok hf hp hd ht,
    fun r hr => (cycle_eq_dispatchWord hf hp).trans (dispatchWord_exec_fault hd hr)⟩

/-- Settles O9: the cycle dispatches the word at `pc`, which is in no row. -/
theorem unknownOpcodeAdvancesAndReports : Obligations.UnknownOpcodeAdvancesAndReports := by
  intro s hs hf hp hd
  rw [step_of_schedule_nil hs, cycle_eq_dispatchWord hf hp, dispatchWord_unknown _ hd]
  rfl

/-! ## What no cycle writes (R31, R34, R38, R71) -/

/-- No instruction clears `dirty`: CLS sets it, DRW sets it or leaves it, no other writes it. -/
theorem exec_keeps_dirty {i : Instr} {s t : State} (h : exec i s = .next t) (hd : s.dirty = true) :
    t.dirty = true := by
  by_cases hw : writesScreen i
  · obtain rfl | ⟨x, y, n, rfl⟩ := hw
    · cases h; rfl
    · obtain ⟨-, rfl⟩ := exec_drw_next.mp h
      rw [State.setReg_dirty, State.setScreen_dirty, blit_eq]
      exact (setPixels_dirty _ _).mpr (.inl hd)
  · obtain ⟨-, hdirty⟩ := exec_screen_other h hw
    exact hdirty.trans hd

/-- Settles O13: an unknown word changes nothing here, and a decoded one what its instruction may write. -/
theorem cycleLeavesTheHostsSideAlone : Obligations.CycleLeavesTheHostsSideAlone := by
  intro s t h
  obtain ⟨hf, -, ⟨i, u, hi, hu, rfl⟩ | ⟨e, -, rfl⟩⟩ := cycle_cases h
  · obtain ⟨hkeys, hquirks, hconfig, hschedule, hfaulted⟩ : u.keys = s.keys ∧ u.quirks = s.quirks ∧
        u.config = s.config ∧ u.schedule = s.schedule ∧ u.faulted = s.faulted := by
      rw [exec_frame hu]
      exact ⟨rfl, rfl, rfl, rfl, rfl⟩
    have hdirty (hd : s.dirty = true) : u.dirty = true := exec_keeps_dirty (s := s.advance) hu hd
    have hdt (hne : ∀ x, i ≠ .ldDt x) : u.dt = s.dt := exec_dt_other (s := s.advance) hu hne
    have hst (hne : ∀ x, i ≠ .ldSt x) : u.st = s.st := exec_st_other (s := s.advance) hu hne
    exact ⟨hkeys, hquirks, hconfig, hschedule, hfaulted.trans hf, hdirty,
      fun hne => hdt fun x hx => hne x (hx ▸ hi), fun hne => hst fun x hx => hne x (hx ▸ hi)⟩
  · exact ⟨rfl, rfl, rfl, rfl, hf, id, fun _ => rfl, fun _ => rfl⟩

end Sys2Proof.Machine
end

section
/-! PROOFS. Control transfer (spec/40_control_flow.md): CALL and RET on the stack, the jumps, and the four compares that
skip. -/

namespace Sys2Proof.Machine

/-! ## CALL and RET (R100, R102) -/

theorem exec_ret_cons {s : State} {w : Word} {rest : List Word} (h : s.stack = w :: rest) :
    exec .ret s = .next ((s.setStack rest).setPc w) :=
  exec_ret_next.mpr ⟨w, rest, h, rfl⟩

theorem exec_ret_nil {s : State} (h : s.stack = []) : exec .ret s = .fault .stackUnderflow := by
  show execRet s = _
  rw [execRet, pop_nil h]

theorem exec_call_room {s : State} (nnn : Addr12) (h : s.config.stackDepth ≠ some s.stack.length) :
    exec (.call nnn) s = .next ((s.setStack (s.pc :: s.stack)).setPc (zext16 nnn)) :=
  exec_call_next.mpr ⟨h, rfl⟩

theorem exec_call_full {s : State} (nnn : Addr12) (h : s.config.stackDepth = some s.stack.length) :
    exec (.call nnn) s = .fault (.stackOverflow s.pc) := by
  show execCall nnn s = _
  rw [execCall, push, if_pos h]

/-- Settles O19: the stack has a top entry or is empty. -/
theorem retPopsIntoPc : Obligations.RetPopsIntoPc :=
  fun _ => ⟨fun _ _ => exec_ret_cons, exec_ret_nil⟩

/-- Settles O20: the stack has room or is full. -/
theorem callPushesTheAdvancedPc : Obligations.CallPushesTheAdvancedPc :=
  fun _ nnn => ⟨exec_call_room nnn, exec_call_full nnn⟩

/-- Settles O21: each CALL has room, so the stack after both is the two return addresses above the old stack, and each
RET takes the top one. -/
theorem nestedCallsReturnInReverseOrder : Obligations.NestedCallsReturnInReverseOrder := by
  intro s a b hroom
  have hroom1 : s.config.stackDepth ≠ some s.stack.length := fun h => by
    have := hroom _ h
    omega
  refine ⟨_, exec_call_room a hroom1, fun u1 hu1 hconfig => ?_⟩
  have hstack1 : u1.stack = s.pc :: s.stack := hu1
  have hroom2 : u1.config.stackDepth ≠ some u1.stack.length := fun h => by
    rw [hconfig, hstack1, List.length_cons] at h
    have := hroom _ h
    omega
  refine ⟨_, exec_call_room b hroom2, fun u2 hu2 => ?_⟩
  have hstack2 : u2.stack = u1.pc :: u1.stack := hu2
  refine ⟨_, exec_ret_cons hstack2, rfl, fun u3 hu3 => ?_⟩
  have hstack3 : u3.stack = s.pc :: s.stack := hu3.trans hstack1
  exact ⟨_, exec_ret_cons hstack3, rfl, rfl⟩

/-! ## JP and JP V0 (R101, R108) -/

theorem zext16_toNat {n : Nat} (hn : n ≤ 16) (a : BitVec n) : (zext16 a).toNat = a.toNat :=
  BitVec.toNat_setWidth_of_le hn

/-- A 12-bit address plus a byte is less than 65536: the sum does not wrap. -/
theorem zext16_add_zext16_toNat (nnn : Addr12) (b : Byte) :
    (zext16 nnn + zext16 b).toNat = nnn.toNat + b.toNat := by
  have hn : (zext16 nnn).toNat = nnn.toNat := zext16_toNat (by decide) nnn
  have hb : (zext16 b).toNat = b.toNat := zext16_toNat (by decide) b
  rw [BitVec.toNat_add_of_lt (by omega), hn, hb]

/-- Settles O22: each jump is one update of `pc`, with a value that its operands fit. -/
theorem jumpsSetPcAlone : Obligations.JumpsSetPcAlone :=
  fun s x nnn => ⟨⟨s.setPc (zext16 nnn), rfl, rfl, zext16_toNat (by decide) nnn⟩,
    ⟨s.setPc (zext16 nnn + zext16 (jumpOffset x s)), rfl, rfl, zext16_add_zext16_toNat nnn (jumpOffset x s)⟩⟩

/-! ## SE and SNE (R103 to R107) -/

/-- The two skips on a comparison, where it finds the values equal: SE moves `pc`, SNE does not. -/
theorem skipIf_of_eq {a b : Byte} (s : State) (h : a = b) :
    skipIf (decide (a = b)) s = s.setPc (s.pc + 2) ∧ skipIf (decide (a ≠ b)) s = s := by
  rw [decide_eq_true h, decide_eq_false (not_not_intro h)]
  exact ⟨skipIf_true s, skipIf_false s⟩

theorem skipIf_of_ne {a b : Byte} (s : State) (h : a ≠ b) :
    skipIf (decide (a = b)) s = s ∧ skipIf (decide (a ≠ b)) s = s.setPc (s.pc + 2) := by
  rw [decide_eq_false h, decide_eq_true h]
  exact ⟨skipIf_false s, skipIf_true s⟩

/-- Settles O23: every one of the four is a skip on a comparison of two bytes. -/
theorem skipsMovePcByTwoWhenTheConditionHolds : Obligations.SkipsMovePcByTwoWhenTheConditionHolds := by
  intro s x y nn
  have hnext {t u : State} (h : t = u) : Host.Outcome.next (φ := Fault) (ρ := Refusal) t = .next u := congrArg _ h
  exact ⟨fun h => (skipIf_of_eq s h).imp hnext hnext, fun h => (skipIf_of_ne s h).imp hnext hnext,
    fun h => (skipIf_of_eq s h).imp hnext hnext, fun h => (skipIf_of_ne s h).imp hnext hnext⟩

end Sys2Proof.Machine
end

section
/-! PROOFS. Registers and arithmetic (spec/41_alu.md): what each shape of register write does to a register and to the
rest of the state, and the values and flags as numbers. -/

namespace Sys2Proof.Machine

/-- A state that differs in registers alone keeps every other unit and every byte. -/
theorem frame_of_eq_setRegs {s t : State} (h : t = s.setRegs t.v) : t = { s with v := t.v } ∧ SameBytes s t :=
  ⟨h, fun a => (congrArg (State.byteAt · a) h).trans (State.byteAt_setRegs s t.v a)⟩

/-- The frame of an instruction that writes VX and VF. -/
theorem sameRegsBut_vf {s t : State} {x : Nibble} (h : ∀ r, r ≠ x → r ≠ vf → t.reg r = s.reg r) :
    SameRegsBut [x, vf] s t := fun r hr =>
  h r (List.ne_of_not_mem_cons hr) (List.ne_of_not_mem_cons (List.not_mem_of_not_mem_cons hr))

/-! ## One register written: LD, ADD Vx,NN and RND (R120, R121, R122, R133, R201) -/

theorem setReg_writes {s t : State} {x : Nibble} {b : Byte} (ht : t = s.setReg x b) :
    t.reg x = b ∧ t = { s with v := t.v } ∧ SameRegsBut [x] s t ∧ SameBytes s t := by
  subst ht
  obtain ⟨hstate, hbytes⟩ := frame_of_eq_setRegs (s := s) (t := s.setReg x b) rfl
  refine ⟨?_, hstate, fun r hr => reg_setReg_other (List.ne_of_not_mem_cons hr), hbytes⟩
  rw [State.reg_setReg, if_pos rfl]

/-- Settles O24: each of the three is one write of VX. -/
theorem loadsPutTheirValueIntoVx : Obligations.LoadsPutTheirValueIntoVx :=
  fun _ _ _ _ => ⟨⟨_, rfl, setReg_writes rfl⟩, ⟨_, rfl, setReg_writes rfl⟩, ⟨_, rfl, setReg_writes rfl⟩⟩

/-- Settles O25: one write of VX, with the sum of two bytes. -/
theorem addImmediateWrapsWithoutCarry : Obligations.AddImmediateWrapsWithoutCarry := by
  intro s x nn
  obtain ⟨hreg, hframe⟩ := setReg_writes (rfl : _ = s.setReg x (s.reg x + nn))
  exact ⟨_, rfl, (congrArg BitVec.toNat hreg).trans (BitVec.toNat_add ..), hframe⟩

/-- Settles O30: one write of VX, with the conjunction of the free byte and NN. -/
theorem rndMasksTheFreeByte : Obligations.RndMasksTheFreeByte := by
  intro s x nn
  obtain ⟨hreg, hstate, hregs, hbytes⟩ := setReg_writes (rfl : _ = s.setReg x (Config.rnd s.cycleNo &&& nn))
  exact ⟨_, rfl, hstate, hregs, hbytes, fun j => (congrArg (BitVec.getLsbD · j) hreg).trans BitVec.getLsbD_and⟩

/-! ## OR, AND and XOR (R123, R124, R125) -/

/-- An operation that acts bit by bit as `g` does so on the operands read after VF is cleared. -/
theorem bitwise_writes {f : Byte → Byte → Byte} {g : Bool → Bool → Bool} {s t : State} {x y : Nibble}
    {operand : Nibble → Byte} (ht : t = bitwise f x y s)
    (hf : ∀ a b j, (f a b).getLsbD j = g (a.getLsbD j) (b.getLsbD j))
    (hop : ∀ r, (clearVfFirst s).reg r = operand r) :
    t = { s with v := t.v } ∧ SameBytes s t ∧
      (∀ j, (t.reg x).getLsbD j = g ((operand x).getLsbD j) ((operand y).getLsbD j)) ∧
      (∀ r, r ≠ x → t.reg r = operand r) := by
  subst ht
  obtain ⟨hstate, hbytes⟩ := frame_of_eq_setRegs (bitwise_eq f x y s)
  refine ⟨hstate, hbytes, fun j => ?_, fun r hr => ?_⟩
  · rw [reg_bitwise, if_pos rfl, hop, hop, hf]
  · rw [reg_bitwise, if_neg hr, hop]

/-- Settles O26: the three are one shape, with an operation that acts on each bit. -/
theorem bitwiseOperationsActOnEveryBit : Obligations.BitwiseOperationsActOnEveryBit := by
  intro s x y operand
  have hop : ∀ r, (clearVfFirst s).reg r = operand r := reg_clearVfFirst s
  exact ⟨⟨_, rfl, bitwise_writes rfl (fun _ _ _ => BitVec.getLsbD_or) hop⟩,
    ⟨_, rfl, bitwise_writes rfl (fun _ _ _ => BitVec.getLsbD_and) hop⟩,
    ⟨_, rfl, bitwise_writes rfl (fun _ _ _ => BitVec.getLsbD_xor) hop⟩⟩

/-! ## Values and flags as numbers (R131) -/

theorem carryFlag_toNat (a b : Byte) : (carryFlag a b).toNat = if a.toNat + b.toNat > 255 then 1 else 0 := by
  simp only [carryFlag, flagByte_toNat, decide_eq_true_eq]

theorem notBorrowFlag_toNat (a b : Byte) : (notBorrowFlag a b).toNat = if a.toNat ≥ b.toNat then 1 else 0 := by
  simp only [notBorrowFlag, flagByte_toNat, decide_eq_true_eq]

/-- The difference of two bytes, by whether there is a borrow. -/
theorem sub_toNat_cases (a b : Byte) :
    (a - b).toNat = if a.toNat ≥ b.toNat then a.toNat - b.toNat else a.toNat + 256 - b.toNat := by
  split <;> bv_omega

theorem shiftedOutRight_toNat (a : Byte) : (shiftedOutRight a).toNat = a.toNat % 2 :=
  (BitVec.toNat_and a 1).trans (Nat.and_one_is_mod a.toNat)

theorem shiftedOutLeft_toNat (a : Byte) : (shiftedOutLeft a).toNat = a.toNat / 128 :=
  (BitVec.toNat_ushiftRight a 7).trans (Nat.shiftRight_eq_div_pow a.toNat 7)

/-! ## ADD, SUB and SUBN: the flag is written last (R126, R127, R129, R132) -/

theorem resultThenFlag_writes {s t : State} {x : Nibble} {result flag : Byte} {m n : Nat}
    (ht : t = resultThenFlag x result flag s) (hresult : result.toNat = m) (hflag : flag.toNat = n) :
    t = { s with v := t.v } ∧ SameRegsBut [x, vf] s t ∧ SameBytes s t ∧
      (x ≠ vf → (t.reg x).toNat = m) ∧ (t.reg vf).toNat = n := by
  subst ht
  obtain ⟨hstate, hbytes⟩ := frame_of_eq_setRegs (resultThenFlag_eq x result flag s)
  refine ⟨hstate, sameRegsBut_vf (fun _ => reg_resultThenFlag_other), hbytes, fun hx => ?_, ?_⟩
  · rw [reg_resultThenFlag, if_neg hx, if_pos rfl, hresult]
  · rw [reg_resultThenFlag, if_pos rfl, hflag]

/-- Settles O27: the sum goes to VX, then the carry to VF. -/
theorem addWritesSumThenCarry : Obligations.AddWritesSumThenCarry :=
  fun _ _ _ => ⟨_, rfl, resultThenFlag_writes rfl (BitVec.toNat_add ..) (carryFlag_toNat ..)⟩

/-- Settles O28: the difference goes to VX, then the absence of a borrow to VF. -/
theorem subtractionsWriteDifferenceThenNotBorrow : Obligations.SubtractionsWriteDifferenceThenNotBorrow :=
  fun _ _ _ => ⟨⟨_, rfl, resultThenFlag_writes rfl (sub_toNat_cases ..) (notBorrowFlag_toNat ..)⟩,
    ⟨_, rfl, resultThenFlag_writes rfl (sub_toNat_cases ..) (notBorrowFlag_toNat ..)⟩⟩

/-! ## SHR and SHL: the result is written last (R128, R130, R132) -/

theorem reg_shiftSource_self (x y : Nibble) (s : State) :
    (shiftSource x y s).reg x = if s.quirks.shifting then s.reg x else s.reg y := by
  rw [reg_shiftSource]
  cases s.quirks.shifting
  · exact if_pos ⟨rfl, rfl⟩
  · exact if_neg fun h => nomatch h.2

theorem flagThenResult_shiftSource_writes {s t : State} {x y : Nibble} {result flag : Byte} {m n : Nat}
    (ht : t = flagThenResult x result flag (shiftSource x y s)) (hresult : result.toNat = m) (hflag : flag.toNat = n) :
    t = { s with v := t.v } ∧ SameRegsBut [x, vf] s t ∧ SameBytes s t ∧
      (t.reg x).toNat = m ∧ (x ≠ vf → (t.reg vf).toNat = n) := by
  have honly : t = s.setRegs t.v := by
    rw [ht, flagThenResult_eq, shiftSource_eq]
    rfl
  obtain ⟨hstate, hbytes⟩ := frame_of_eq_setRegs honly
  subst ht
  refine ⟨hstate, sameRegsBut_vf (fun _ => reg_flagThenResult_shiftSource_other), hbytes, ?_, fun hx => ?_⟩
  · rw [reg_flagThenResult, if_pos rfl, hresult]
  · rw [reg_flagThenResult, if_neg hx.symm, if_pos rfl, hflag]

/-- Settles O29: the bit shifted out of the source value goes to VF, then the shifted value to VX. -/
theorem shiftsWriteTheBitThenTheResult : Obligations.ShiftsWriteTheBitThenTheResult := by
  intro s x y value
  have hvalue : ((shiftSource x y s).reg x).toNat = value := congrArg BitVec.toNat (reg_shiftSource_self x y s)
  have hright : ((shiftSource x y s).reg x >>> 1).toNat = value / 2 := by
    rw [BitVec.toNat_ushiftRight, Nat.shiftRight_eq_div_pow, hvalue]
  have hleft : ((shiftSource x y s).reg x <<< 1).toNat = value * 2 % 256 := by
    rw [BitVec.toNat_shiftLeft, Nat.shiftLeft_eq, hvalue]
  have hlow : (shiftedOutRight ((shiftSource x y s).reg x)).toNat = value % 2 := by
    rw [shiftedOutRight_toNat, hvalue]
  have hhigh : (shiftedOutLeft ((shiftSource x y s).reg x)).toNat = value / 128 := by
    rw [shiftedOutLeft_toNat, hvalue]
  exact ⟨⟨_, rfl, flagThenResult_shiftSource_writes rfl hright hlow⟩,
    ⟨_, rfl, flagThenResult_shiftSource_writes rfl hleft hhigh⟩⟩

end Sys2Proof.Machine
end

section
/-! PROOFS. Index and memory (spec/42_index_memory.md): the values that go to I, the digits of LD B, and the transfers
between memory and V0 to VX. -/

namespace Sys2Proof.Machine

/-! ## LD I, ADD I and LD F (R140, R141, R142) -/

theorem add_zext16_byte_toNat (i : Word) (b : Byte) : (i + zext16 b).toNat = (i.toNat + b.toNat) % 65536 := by
  rw [BitVec.toNat_add, zext16_toNat (by decide)]

/-- The low nibble of a byte, as a number. -/
theorem lowNibble_toNat (b : Byte) : (b &&& 0xF).toNat = b.toNat % 16 :=
  (BitVec.toNat_and b 0xF).trans (Nat.and_two_pow_sub_one_eq_mod b.toNat 4)

theorem glyphAddress_toNat (c : Config) (b : Byte) :
    (glyphAddress c b).toNat = (c.fontBase.toNat + 5 * (b.toNat % 16)) % 65536 := by
  have hlow : (zext16 (b &&& 0xF)).toNat = b.toNat % 16 := (zext16_toNat (by decide) _).trans (lowNibble_toNat b)
  have hmul : (5 * zext16 (b &&& 0xF)).toNat = 5 * (b.toNat % 16) := by
    rw [BitVec.toNat_mul, hlow]
    exact Nat.mod_eq_of_lt (show 5 * (b.toNat % 16) < 65536 by omega)
  rw [glyphAddress, BitVec.toNat_add, hmul]

/-- Settles O32: each of the three is one write of I, with a value that its operands give. -/
theorem indexInstructionsComputeI : Obligations.IndexInstructionsComputeI :=
  fun s x nnn => ⟨⟨_, rfl, rfl, zext16_toNat (by decide) nnn⟩, ⟨_, rfl, rfl, add_zext16_byte_toNat s.i (s.reg x)⟩,
    ⟨_, rfl, rfl, glyphAddress_toNat s.config (s.reg x)⟩⟩

/-! ## Where a transfer leaves memory (R56, R213) -/

theorem exec_ldB_fault {s : State} (x : Nibble) (h : s.i.toNat > 4093) :
    exec (.ldB x) s = .fault (.memoryOutOfRange (firstBad s.i)) := by
  have hlen : (bcdDigits (s.reg x)).length = 3 := rfl
  show execLdB x s = _
  rw [execLdB, writeBytes_error (List.ne_nil_of_length_eq_add_one hlen) (by omega)]
  rfl

theorem exec_storeRegs_fault {s : State} {x : Nibble} (h : s.i.toNat + x.toNat > 4095) :
    exec (.storeRegs x) s = .fault (.memoryOutOfRange (firstBad s.i)) := by
  have hlen := s.regsUpTo_length x
  show execStoreRegs x s = _
  rw [execStoreRegs, writeBytes_error (List.ne_nil_of_length_eq_add_one hlen) (by omega)]

theorem exec_loadRegs_fault {s : State} {x : Nibble} (h : s.i.toNat + x.toNat > 4095) :
    exec (.loadRegs x) s = .fault (.memoryOutOfRange (firstBad s.i)) := by
  show execLoadRegs x s = _
  rw [execLoadRegs, readBytes_error (Nat.succ_pos _) (by omega)]

/-! ## LD B (R143) -/

/-- A value below 256 fits a byte, every decimal digit of a byte among them. -/
theorem digit_toNat {d : Nat} (h : d < 256) : (BitVec.ofNat 8 d).toNat = d :=
  (BitVec.toNat_ofNat ..).trans (Nat.mod_eq_of_lt h)

/-- LD B leaves the digits of VX at their places from I on. -/
theorem exec_ldB_byteAt {s t : State} {x : Nibble} {k : Nat} (hwf : Memory.wf s.config s.mem = true)
    (h : exec (.ldB x) s = .next t) (hk : k < 3) : t.byteAt (s.i.toNat + k) = (bcdDigits (s.reg x)).getD k 0 := by
  obtain ⟨hi, rfl⟩ := exec_ldB_next.mp h
  have hlen : (bcdDigits (s.reg x)).length = 3 := rfl
  rw [byteAt_writeRun hwf (by omega), if_pos (by omega), Nat.add_sub_cancel_left]

/-- Settles O33: the run of three writes from I is inside memory or not. -/
theorem bcdStoresThreeDigits : Obligations.BcdStoresThreeDigits := by
  rintro s x ⟨-, hwf, -⟩
  refine ⟨fun hi => ?_, exec_ldB_fault x⟩
  have hexec := (exec_ldB_next (x := x)).mpr ⟨hi, rfl⟩
  have hx := (s.reg x).isLt
  refine ⟨_, hexec, rfl, ?_, ?_, ?_, fun a ha => exec_byteAt_other hwf hexec ha⟩
  · exact (congrArg BitVec.toNat (exec_ldB_byteAt hwf hexec (k := 0) (by decide))).trans (digit_toNat (by omega))
  · exact (congrArg BitVec.toNat (exec_ldB_byteAt hwf hexec (k := 1) (by decide))).trans (digit_toNat (by omega))
  · exact (congrArg BitVec.toNat (exec_ldB_byteAt hwf hexec (k := 2) (by decide))).trans (digit_toNat (by omega))

/-! ## LD [I],Vx and LD Vx,[I] (R144, R145) -/

/-- I after a transfer inside memory: the address past its last byte is at most 4096, so nothing wraps. -/
theorem indexAfterTransfer_toNat {i : Word} {x : Nibble} (memory : Bool) (h : i.toNat + x.toNat ≤ 4095) :
    (if memory then i + zext16 x + 1 else i).toNat = if memory then i.toNat + x.toNat + 1 else i.toNat := by
  have hx : (zext16 x).toNat = x.toNat := zext16_toNat (by decide) x
  cases memory
  · rfl
  · show (i + zext16 x + 1).toNat = i.toNat + x.toNat + 1
    bv_omega

/-- Settles O34: the run of writes from I is inside memory or not. -/
theorem storeRegistersCopiesV0ToVx : Obligations.StoreRegistersCopiesV0ToVx := by
  rintro s x ⟨-, hwf, -⟩
  refine ⟨fun hi => ?_, exec_storeRegs_fault⟩
  have hexec := exec_storeRegs_next.mpr ⟨hi, rfl⟩
  exact ⟨_, hexec, rfl, fun _ => exec_storeRegs_byteAt hwf hexec, fun _ => exec_byteAt_other hwf hexec,
    indexAfterTransfer_toNat _ hi⟩

/-- LD Vx,[I] loads each of V0 to VX from its place from I on. -/
theorem exec_loadRegs_reg {s t : State} {x r : Nibble} (h : exec (.loadRegs x) s = .next t)
    (hr : r.toNat ≤ x.toNat) : t.reg r = s.byteAt (s.i.toNat + r.toNat) := by
  obtain ⟨-, rfl⟩ := exec_loadRegs_next.mp h
  rw [State.reg_setI]
  refine (fillRegs_getElem _ s.v 0 r.toNat r.isLt).trans ?_
  have hlt : r.toNat < x.toNat + 1 := Nat.lt_succ_of_le hr
  rw [if_pos ⟨Nat.zero_le _, by simpa using hlt⟩, Nat.sub_zero]
  simp [hlt]

/-- Settles O35: the run of reads from I is inside memory or not. -/
theorem loadRegistersCopiesIntoV0ToVx : Obligations.LoadRegistersCopiesIntoV0ToVx := by
  intro s x
  refine ⟨fun hi => ?_, exec_loadRegs_fault⟩
  have hexec := exec_loadRegs_next.mpr ⟨hi, rfl⟩
  exact ⟨_, hexec, rfl, fun _ => rfl, fun _ => exec_loadRegs_reg hexec,
    fun _ hr => exec_reg_other hexec (Nat.not_le.mpr hr), indexAfterTransfer_toNat _ hi⟩

/-- A load where a store stood, from the memory that the store left, brings V0 to VX back and moves I as the store
did. -/
theorem exec_loadRegs_after_storeRegs {s t u : State} {x : Nibble} (hwf : Memory.wf s.config s.mem = true)
    (hstore : exec (.storeRegs x) s = .next t) (hu : u = { t with v := u.v, pc := u.pc, i := s.i }) :
    ∃ w, exec (.loadRegs x) u = .next w ∧ (∀ r : Nibble, r.toNat ≤ x.toNat → w.reg r = s.reg r) ∧
      w.i = t.i ∧ w.mem = t.mem := by
  obtain ⟨hi, ht⟩ := exec_storeRegs_next.mp hstore
  have hui : u.i = s.i := by rw [hu]
  have hload := (exec_loadRegs_next (s := u) (x := x)).mpr ⟨hui ▸ hi, rfl⟩
  refine ⟨_, hload, fun r hr => ?_, ?_, ?_⟩
  · have hbyte : u.byteAt (s.i.toNat + r.toNat) = t.byteAt (s.i.toNat + r.toNat) := by rw [hu]; rfl
    rw [exec_loadRegs_reg hload hr, hui, hbyte, exec_storeRegs_byteAt hwf hstore hr]
  · rw [hu, ht]; rfl
  · rw [hu]; rfl

/-- Settles O36: the store completes, and the load follows it. -/
theorem storeThenLoadRoundTrips : Obligations.StoreThenLoadRoundTrips := by
  rintro s x ⟨-, hwf, -⟩ hi
  have hstore := exec_storeRegs_next.mpr ⟨hi, rfl⟩
  exact ⟨_, hstore, fun _ => exec_loadRegs_after_storeRegs hwf hstore⟩

end Sys2Proof.Machine
end

section
/-! PROOFS. The display (spec/43_display.md): one pixel, the blit past an edge, CLS, what DRW writes and what a second
DRW undoes, the read-out, and who clears `dirty`. -/

namespace Sys2Proof.Machine

/-! ## Pixels written twice (R160) -/

/-- Pixels at distinct cells, written again, restore every cell. -/
theorem setPixels_twice_disp {ps : List Pixel} {scr scr' : Screen} (hnodup : (ps.map (·.1)).Nodup)
    (hdisp : scr'.disp = (setPixels scr ps).1.disp) : (setPixels scr' ps).1.disp = scr.disp := by
  refine display_ext fun x y => ?_
  by_cases hwritten : ∃ bit, ((x, y), bit) ∈ ps
  · obtain ⟨bit, hmem⟩ := hwritten
    rw [setPixels_cell x y bit ps scr' hnodup hmem, hdisp, setPixels_cell x y bit ps scr hnodup hmem,
      Bool.xor_assoc, Bool.xor_self, Bool.xor_false]
  · have hother : ∀ p ∈ ps, p.1 ≠ (x, y) := by
      rintro ⟨p, bit⟩ hmem rfl
      exact hwritten ⟨bit, hmem⟩
    rw [setPixels_cell_other x y ps scr' hother, hdisp, setPixels_cell_other x y ps scr hother]

/-- Pixels at distinct cells, written again, collide where a 1 bit went to a cell that was off at first. -/
theorem setPixels_twice_hit {ps : List Pixel} {scr scr' : Screen} (hnodup : (ps.map (·.1)).Nodup)
    (hdisp : scr'.disp = (setPixels scr ps).1.disp) :
    (setPixels scr' ps).2 = true ↔ ∃ p ∈ ps, p.2 = true ∧ cell scr.disp p.1.1 p.1.2 = false := by
  rw [setPixels_hit ps scr' hnodup]
  refine exists_congr fun ⟨p, bit⟩ => and_congr_right fun hmem => and_comm.trans (and_congr_right fun hbit => ?_)
  obtain rfl : bit = true := hbit
  rw [hdisp, setPixels_cell p.1 p.2 true ps scr hnodup hmem, Bool.xor_true, Bool.not_eq_true']

/-! ## One pixel (R160) -/

theorem cell_setPixel_self (scr : Screen) (x : Fin 64) (y : Fin 32) (bit : Bool) :
    cell (setPixel scr x y bit).1.disp x y = (cell scr.disp x y ^^ bit) := by
  rw [cell_setPixel, if_pos ⟨rfl, rfl⟩]

/-- A cell changes exactly when the bit is 1, which is when `dirty` is set. -/
theorem setPixel_dirty_iff_changed (scr : Screen) (x : Fin 64) (y : Fin 32) (bit : Bool) :
    (setPixel scr x y bit).1.dirty =
      (scr.dirty || decide (cell (setPixel scr x y bit).1.disp x y ≠ cell scr.disp x y)) := by
  rw [setPixel_dirty, cell_setPixel_self]
  cases bit <;> simp

/-- Of two calls at one cell exactly one reports, and none when the bit is 0. -/
theorem setPixel_twice_hit (scr : Screen) (x : Fin 64) (y : Fin 32) (bit : Bool) :
    ((setPixel scr x y bit).2 ^^ (setPixel (setPixel scr x y bit).1 x y bit).2) = bit := by
  rw [setPixel_hit, setPixel_hit, cell_setPixel_self]
  cases cell scr.disp x y <;> cases bit <;> rfl

/-- Settles O38: one pixel, the same pixel twice, and the instructions that write `dirty`. -/
theorem setPixelXorsItsCell : Obligations.SetPixelXorsItsCell := by
  refine ⟨fun scr x y bit => ⟨fun x' y' => cell_setPixel scr x x' y y' bit, setPixel_dirty_iff_changed scr x y bit,
    ?_, ?_, setPixel_twice_hit scr x y bit⟩, fun i s t h => ⟨exec_keeps_dirty h, fun hcls hdrw => ?_⟩⟩
  · rw [cell_setPixel_self]
    rfl
  · exact setPixels_twice_disp (ps := [((x, y), bit)]) (List.nodup_singleton _) rfl
  · have hnot : ¬ writesScreen i := by
      rintro (hi | ⟨x, y, n, hi⟩)
      · exact hcls hi
      · exact hdrw x y n hi
    obtain ⟨-, hdirty⟩ := exec_screen_other h hnot
    exact hdirty

/-! ## The blit past an edge (R164) -/

/-- With clipping a blit that starts past an edge has no pixel to write. -/
theorem blitPixels_clipped {x0 y0 : Nat} (rows : List Byte) (h : x0 ≥ 64 ∨ y0 ≥ 32) :
    blitPixels true x0 y0 rows = [] := by
  refine List.eq_nil_iff_forall_not_mem.mpr fun ⟨p, bit⟩ hmem => ?_
  obtain ⟨row, col, -, -, -, -, hx, hy⟩ := (mem_blitPixels true p bit rows x0 y0).mp hmem
  have hwidth := p.1.isLt
  have hheight := p.2.isLt
  omega

/-- Without clipping a target depends only on its coordinates modulo the width and the height. -/
theorem target_wraps {tx tx' ty ty' : Nat} (hx : tx % 64 = tx' % 64) (hy : ty % 32 = ty' % 32) :
    target false tx ty = target false tx' ty' := by
  simp only [target, hx, hy, Bool.false_eq_true, if_false]

theorem rowPixels_wraps : ∀ (bits : List Bool) {tx tx' ty ty' : Nat}, tx % 64 = tx' % 64 → ty % 32 = ty' % 32 →
    rowPixels false tx ty bits = rowPixels false tx' ty' bits
  | [], _, _, _, _, _, _ => rfl
  | bit :: bits, tx, tx', ty, ty', hx, hy => by
    rw [rowPixels, rowPixels, target_wraps hx hy, rowPixels_wraps bits (show (tx + 1) % 64 = (tx' + 1) % 64 by omega) hy]

theorem blitPixels_wraps : ∀ (rows : List Byte) {x0 x0' y0 y0' : Nat}, x0 % 64 = x0' % 64 → y0 % 32 = y0' % 32 →
    blitPixels false x0 y0 rows = blitPixels false x0' y0' rows
  | [], _, _, _, _, _, _ => rfl
  | row :: rows, x0, x0', y0, y0', hx, hy => by
    rw [blitPixels, blitPixels, rowPixels_wraps _ hx hy,
      blitPixels_wraps rows hx (show (y0 + 1) % 32 = (y0' + 1) % 32 by omega)]

/-- Settles O39: a blit is its pixels, and these are none, or those of the wrapped start. -/
theorem blitPastTheEdgeClipsOrWraps : Obligations.BlitPastTheEdgeClipsOrWraps := by
  intro scr x0 y0 rows
  simp only [blit_eq]
  refine ⟨fun h => ?_, ?_, ?_⟩
  · rw [blitPixels_clipped rows h]
    rfl
  · rw [blitPixels_wraps rows (Nat.add_mod_right x0 64) rfl]
  · rw [blitPixels_wraps rows rfl (Nat.add_mod_right y0 32)]

/-! ## CLS (R161) -/

theorem cell_replicate_zero (x : Fin 64) (y : Fin 32) : cell (Vector.replicate 32 0) x y = false := by
  simp [cell]

/-- Settles O40: CLS is one write of the display and of `dirty`. -/
theorem clsClearsAndMarksDirty : Obligations.ClsClearsAndMarksDirty :=
  fun _ => ⟨_, rfl, rfl, cell_replicate_zero, fun _ => rfl, fun _ => rfl⟩

/-! ## DRW as a sequence of pixels (R162, R164) -/

/-- The pixels that DRW writes, in order. -/
def drawPixels (s : State) (x y n : Nibble) : List Pixel :=
  blitPixels s.quirks.clipping ((s.reg x).toNat % 64) ((s.reg y).toNat % 32) (spriteRows s n)

/-- DRW writes the source bit of a sprite row and column to a cell, the start reduced in either mode (decisions D13,
D28). -/
def WritesCell (s : State) (x y n : Nibble) (row col : Nat) (cx : Fin 64) (cy : Fin 32) : Prop :=
  row < n.toNat ∧ col < 8 ∧
    Lands s.quirks.clipping ((s.reg x).toNat % 64 + col) ((s.reg y).toNat % 32 + row) cx cy

theorem mem_drawPixels_iff {s : State} {x y n : Nibble} {p : Fin 64 × Fin 32} {bit : Bool} :
    (p, bit) ∈ drawPixels s x y n ↔ ∃ row col, WritesCell s x y n row col p.1 p.2 ∧ bit = spriteBit s row col :=
  mem_drawPixels s s.quirks.clipping _ _ n p bit

/-- Some pixel of DRW is such, by sprite row and column. -/
theorem exists_mem_drawPixels {s : State} {x y n : Nibble} {P : Pixel → Prop} :
    (∃ p ∈ drawPixels s x y n, P p) ↔
      ∃ row col cx cy, WritesCell s x y n row col cx cy ∧ P ((cx, cy), spriteBit s row col) := by
  constructor
  · rintro ⟨⟨p, bit⟩, hmem, hP⟩
    obtain ⟨row, col, hw, rfl⟩ := mem_drawPixels_iff.mp hmem
    exact ⟨row, col, p.1, p.2, hw, hP⟩
  · rintro ⟨row, col, cx, cy, hw, hP⟩
    exact ⟨_, mem_drawPixels_iff.mpr ⟨row, col, hw, rfl⟩, hP⟩

theorem drawPixels_nodup (s : State) (x y n : Nibble) : ((drawPixels s x y n).map (·.1)).Nodup :=
  blitPixels_nodup _ _ _ _ (spriteRows_length_le s n)

/-- Everything a completed DRW does: its pixels, then the collision to VF. -/
theorem exec_drw_pixels {s t : State} {x y n : Nibble} : exec (.drw x y n) s = .next t ↔
    (n.toNat = 0 ∨ s.i.toNat + n.toNat ≤ 4096) ∧
    t = (s.setScreen (setPixels s.screen (drawPixels s x y n)).1).setReg vf
      (flagByte (setPixels s.screen (drawPixels s x y n)).2) := by
  rw [exec_drw_next, blit_eq]
  rfl

theorem flagByte_eq_zero_or_one (b : Bool) : flagByte b = 0 ∨ flagByte b = 1 := by
  cases b
  · exact .inl rfl
  · exact .inr rfl

theorem exec_drw_vf {s t : State} {x y n : Nibble} (h : exec (.drw x y n) s = .next t) :
    t.reg vf = flagByte (setPixels s.screen (drawPixels s x y n)).2 := by
  obtain ⟨-, rfl⟩ := exec_drw_pixels.mp h
  rw [State.reg_setReg, if_pos rfl]

theorem exec_drw_disp {s t : State} {x y n : Nibble} (h : exec (.drw x y n) s = .next t) :
    t.disp = (setPixels s.screen (drawPixels s x y n)).1.disp := by
  obtain ⟨-, rfl⟩ := exec_drw_pixels.mp h
  rfl

theorem exec_drw_cell {s t : State} {x y n : Nibble} {row col : Nat} {cx : Fin 64} {cy : Fin 32}
    (h : exec (.drw x y n) s = .next t) (hw : WritesCell s x y n row col cx cy) :
    cell t.disp cx cy = (cell s.disp cx cy ^^ spriteBit s row col) := by
  rw [exec_drw_disp h]
  exact setPixels_cell cx cy _ _ s.screen (drawPixels_nodup s x y n) (mem_drawPixels_iff.mpr ⟨row, col, hw, rfl⟩)

theorem exec_drw_cell_other {s t : State} {x y n : Nibble} {cx : Fin 64} {cy : Fin 32}
    (h : exec (.drw x y n) s = .next t) (hw : ∀ row col, ¬ WritesCell s x y n row col cx cy) :
    cell t.disp cx cy = cell s.disp cx cy := by
  rw [exec_drw_disp h]
  refine setPixels_cell_other cx cy _ s.screen ?_
  rintro ⟨p, bit⟩ hmem rfl
  obtain ⟨row, col, hrc, -⟩ := mem_drawPixels_iff.mp hmem
  exact hw row col hrc

theorem exec_drw_vf_eq_one {s t : State} {x y n : Nibble} (h : exec (.drw x y n) s = .next t) :
    t.reg vf = 1 ↔ ∃ row col cx cy, WritesCell s x y n row col cx cy ∧ cell s.disp cx cy = true ∧
      spriteBit s row col = true := by
  rw [exec_drw_vf h, flagByte_eq_one, setPixels_hit _ _ (drawPixels_nodup s x y n), exists_mem_drawPixels]
  rfl

theorem exec_drw_dirty {s t : State} {x y n : Nibble} (h : exec (.drw x y n) s = .next t) :
    t.dirty = true ↔ s.dirty = true ∨
      ∃ row col cx cy, WritesCell s x y n row col cx cy ∧ spriteBit s row col = true := by
  obtain ⟨-, rfl⟩ := exec_drw_pixels.mp h
  rw [State.setReg_dirty, State.setScreen_dirty, setPixels_dirty, exists_mem_drawPixels]
  rfl

/-- Settles O41, with one lemma for each part of what a completed DRW does. -/
theorem drwXorsTheSprite : Obligations.DrwXorsTheSprite := by
  intro s x y n hinside x0 y0 written
  have hexec := (exec_drw_pixels (x := x) (y := y)).mpr ⟨hinside, rfl⟩
  refine ⟨_, hexec, rfl, fun r hr => reg_setReg_other (List.ne_of_not_mem_cons hr), fun _ => rfl,
    fun _ _ _ _ => exec_drw_cell hexec, fun _ _ => exec_drw_cell_other hexec, ?_, exec_drw_vf_eq_one hexec,
    exec_drw_dirty hexec⟩
  rw [exec_drw_vf hexec]
  exact flagByte_eq_zero_or_one _

/-! ## DRW twice at one place (R163, log 12) -/

/-- Where memory, I, the quirks and the place are the same, DRW writes the same pixels. -/
theorem drawPixels_congr {s u : State} {x y : Nibble} (n : Nibble) (hbytes : SameBytes s u) (hi : u.i = s.i)
    (hquirks : u.quirks = s.quirks) (hx : u.reg x = s.reg x) (hy : u.reg y = s.reg y) :
    drawPixels u x y n = drawPixels s x y n := by
  have hrows : spriteRows u n = spriteRows s n := by
    simp only [spriteRows, hi, hbytes _]
  rw [drawPixels, hquirks, hx, hy, hrows, drawPixels]

/-- Settles O42: the second DRW writes the same pixels, at distinct cells, onto the display the first one left. -/
theorem drawingTwiceRestoresTheDisplay : Obligations.DrawingTwiceRestoresTheDisplay := by
  intro s t u x y n hfirst hu hx hy
  obtain ⟨hinside, ht⟩ := exec_drw_pixels.mp hfirst
  have hbytes : SameBytes s u := fun _ => by rw [hu, ht]; rfl
  have hi : u.i = s.i := by rw [hu, ht]; rfl
  have hquirks : u.quirks = s.quirks := by rw [hu, ht]; rfl
  have hdisp : u.screen.disp = (setPixels s.screen (drawPixels s x y n)).1.disp := by rw [hu, ht]; rfl
  have hpixels := drawPixels_congr n hbytes hi hquirks hx hy
  have hnodup := drawPixels_nodup s x y n
  have hsecond := (exec_drw_pixels (x := x) (y := y)).mpr ⟨hi ▸ hinside, rfl⟩
  refine ⟨_, hsecond, ?_, ?_⟩
  · rw [exec_drw_disp hsecond, hpixels]
    exact setPixels_twice_disp hnodup hdisp
  · rw [exec_drw_vf hsecond, flagByte_eq_one, hpixels, setPixels_twice_hit hnodup hdisp, exists_mem_drawPixels]
    simp only [WritesCell, and_assoc]
    rfl

/-! ## The read-out and `dirty` (R166, R167) -/

/-- In a concatenation of lists of `m` elements each, element `j` of list `i` is at position `i * m + j`. -/
theorem getElem?_flatMap_of_length_eq {α β : Type} {f : α → List β} {m j : Nat} (hlen : ∀ a, (f a).length = m)
    (hj : j < m) : ∀ (l : List α) (i : Nat), (l.flatMap f)[i * m + j]? = l[i]?.bind fun a => (f a)[j]?
  | [], _ => rfl
  | a :: l, 0 => by
    rw [List.flatMap_cons, Nat.zero_mul, Nat.zero_add, List.getElem?_append_left (by rw [hlen]; exact hj)]
    rfl
  | a :: l, i + 1 => by
    have hpos : (i + 1) * m + j = (f a).length + (i * m + j) := by rw [hlen, Nat.succ_mul]; omega
    rw [List.flatMap_cons, hpos, List.getElem?_append_right (Nat.le_add_right ..), Nat.add_sub_cancel_left,
      getElem?_flatMap_of_length_eq hlen hj l i]
    rfl

/-- The 64 cells of a row of the display, by column (R30). -/
def rowCells (row : BitVec 64) : List Bool := (List.range 64).map fun x => row.getLsbD x

theorem readDisplay_eq (s : State) : readDisplay s = s.disp.toList.flatMap rowCells := rfl

theorem rowCells_length (row : BitVec 64) : (rowCells row).length = 64 := by
  rw [rowCells, List.length_map, List.length_range]

/-- Settles O43: the read-out is a concatenation of 32 rows of 64 cells each. -/
theorem readoutIsRowMajor : Obligations.ReadoutIsRowMajor := by
  intro s
  refine ⟨?_, fun x y => ?_⟩
  · rw [readDisplay_eq, List.length_flatMap, funext rowCells_length, List.map_const', List.sum_replicate,
      Vector.length_toList]
    rfl
  · rw [readDisplay_eq, getElem?_flatMap_of_length_eq rowCells_length x.isLt]
    simp [rowCells, cell]

/-- Settles O51: the host's operation is that write, and every completed cycle keeps `dirty` set. -/
theorem clearDirtyChangesNothingElse : Obligations.ClearDirtyChangesNothingElse := by
  refine ⟨fun _ => rfl, fun s t h => ?_⟩
  obtain ⟨-, -, -, -, -, hdirty, -⟩ := cycleLeavesTheHostsSideAlone s t h
  exact hdirty

end Sys2Proof.Machine
end

section
/-! PROOFS. The keypad (spec/44_keypad.md): the key sets and what the host does to them, the snapshot, the two skips on a
key, and the wait for a released key. -/

namespace Sys2Proof.Machine

/-! ## The live set (R180, R181, R184, R185) -/

theorem hostKeyPress_getLsbD (s : State) (k k' : Nibble) :
    (hostKeyPress k s).keys.getLsbD k'.toNat = true ↔ k' = k ∨ s.keys.getLsbD k'.toNat = true := by
  rw [hostKeyPress, BitVec.getLsbD_or, keyBit_getLsbD, Bool.or_eq_true, decide_eq_true_eq, or_comm]

theorem hostKeyRelease_getLsbD (s : State) (k k' : Nibble) :
    (hostKeyRelease k s).keys.getLsbD k'.toNat = true ↔ k' ≠ k ∧ s.keys.getLsbD k'.toNat = true := by
  have hk' : k'.toNat < 16 := k'.isLt
  rw [hostKeyRelease, BitVec.getLsbD_and, BitVec.getLsbD_not, keyBit_getLsbD]
  simp [hk', and_comm]

/-- Settles O50: each is one write of the live set, by one key's bit. -/
theorem keyMutatorsAddAndRemoveOneKey : Obligations.KeyMutatorsAddAndRemoveOneKey :=
  fun s k => ⟨⟨_, rfl, rfl, hostKeyPress_getLsbD s k⟩, ⟨_, rfl, rfl, hostKeyRelease_getLsbD s k⟩⟩

/-- A code of 16 or more is never pressed (D22). -/
theorem isPressed_iff (keys : BitVec 16) (b : Byte) :
    isPressed keys b = true ↔ b.toNat < 16 ∧ keys.getLsbD b.toNat = true :=
  ⟨fun h => ⟨BitVec.lt_of_getLsbD h, h⟩, And.right⟩

/-- Settles O44: SKP is a skip on the key of VX being pressed, SKNP one on the opposite. -/
theorem keySkipsTestTheLiveSet : Obligations.KeySkipsTestTheLiveSet := by
  intro s x
  have hskp : exec (.skp x) s = .next (skipIf (isPressed s.keys (s.reg x)) s) := rfl
  have hsknp : exec (.sknp x) s = .next (skipIf (!isPressed s.keys (s.reg x)) s) := rfl
  rw [hskp, hsknp, ← isPressed_iff]
  cases isPressed s.keys (s.reg x)
  · exact ⟨(fun h => nomatch h), fun _ => ⟨rfl, rfl⟩⟩
  · exact ⟨fun _ => ⟨rfl, rfl⟩, fun h => absurd rfl h⟩

/-! ## The snapshot (R35, R182) -/

theorem cycle_lastKeys {s t : State} (h : cycle s = .next t) : t.lastKeys = s.keys := by
  obtain ⟨-, -, ⟨i, u, -, hu, rfl⟩ | ⟨e, -, rfl⟩⟩ := cycle_cases h
  · rw [State.endCycle_lastKeys, exec_frame hu, State.advance_keys]
  · rfl

theorem applyHost_lastKeys {op : HostOp} (s : State) (hr : ∀ q, op ≠ .reset q) :
    (applyHost op s).lastKeys = s.lastKeys := by
  rw [applyHost_frame s hr]

/-- Settles O12: a cycle ends with the snapshot, and the frame of a host operation holds it. -/
theorem everyCompletedCycleTakesTheSnapshot : Obligations.EveryCompletedCycleTakesTheSnapshot :=
  ⟨fun _ _ => cycle_lastKeys, fun _ => applyHost_lastKeys⟩

theorem foldl_applyHost_lastKeys : ∀ (ops : List HostOp) (s : State), (∀ op ∈ ops, ∀ q, op ≠ .reset q) →
    (ops.foldl (fun u op => applyHost op u) s).lastKeys = s.lastKeys
  | [], _, _ => rfl
  | op :: ops, s, hr => by
    obtain ⟨hop, hops⟩ := List.forall_mem_cons.mp hr
    exact (foldl_applyHost_lastKeys ops (applyHost op s) hops).trans (applyHost_lastKeys s hop)

/-- Settles O46: the operations leave the snapshot, which the cycle made the live set. -/
theorem releasedAreTheNetReleasesSinceTheLastCycle : Obligations.ReleasedAreTheNetReleasesSinceTheLastCycle := by
  intro s t ops k hcycle hr now
  obtain ⟨hkeys, -⟩ := cycleLeavesTheHostsSideAlone s t hcycle
  have hlast : now.lastKeys = t.keys :=
    (foldl_applyHost_lastKeys ops t hr).trans ((cycle_lastKeys hcycle).trans hkeys.symm)
  rw [released_getLsbD, hlast]

/-! ## LD Vx,K (R183, R186) -/

theorem released_eq_zero_iff (s : State) : released s = 0 ↔
    ¬ ∃ k : Nibble, s.lastKeys.getLsbD k.toNat = true ∧ s.keys.getLsbD k.toNat = false := by
  rw [← keyCodes_eq_nil, List.eq_nil_iff_forall_not_mem, not_exists]
  simp only [mem_keyCodes, released_getLsbD]

/-- Right after a snapshot no key is released. -/
theorem released_endCycle (s : State) (r : Report) : released (s.endCycle r) = 0 :=
  BitVec.and_not_self s.keys

theorem exec_ldKey_wait {s : State} (x : Nibble) (h : released s = 0) :
    exec (.ldKey x) s = .next (s.setPc (s.pc - 2)) := by
  show execLdKey x s = _
  rw [execLdKey, (keyCodes_eq_nil _).mpr h]

/-- With a released key the code loaded is one of theirs, whatever the free choice is (D14). -/
theorem exec_ldKey_load {s : State} (x : Nibble) (h : released s ≠ 0) :
    ∃ k : Nibble, (released s).getLsbD k.toNat = true ∧ exec (.ldKey x) s = .next (s.setReg x (k.setWidth 8)) := by
  show ∃ k : Nibble, _ ∧ execLdKey x s = _
  unfold execLdKey
  cases hcodes : keyCodes (released s) with
  | nil => exact absurd ((keyCodes_eq_nil _).mp hcodes) h
  | cons k ks => exact ⟨_, mem_keyCodes.mp (hcodes ▸ pick_mem k ks _), rfl⟩

/-- Settles O45: one write of VX with the code of a released key, or of `pc` where there is none. -/
theorem waitForKeyLoadsAReleasedKeyOrWaits : Obligations.WaitForKeyLoadsAReleasedKeyOrWaits := by
  intro s x rel
  refine ⟨fun hsome => ?_, fun hnone => exec_ldKey_wait x ((released_eq_zero_iff s).mpr hnone)⟩
  obtain ⟨k, hk, hexec⟩ := exec_ldKey_load x fun h => (released_eq_zero_iff s).mp h hsome
  obtain ⟨hreg, hframe⟩ := setReg_writes (rfl : _ = s.setReg x (k.setWidth 8))
  have hcode : (k.setWidth 8).toNat = k.toNat := BitVec.toNat_setWidth_of_le (by decide)
  exact ⟨_, k, hexec, (released_getLsbD s k).mp hk, (congrArg BitVec.toNat hreg).trans hcode, hframe⟩

/-- A waiting cycle undoes its advance, so only the end of the cycle is left. -/
theorem cycle_ldKey_wait {s : State} {x : Nibble} (hf : s.faulted = false) (hp : s.pc.toNat ≤ 4094)
    (hd : decode (s.wordAt s.pc.toNat) = .ok (.ldKey x)) (h : released s = 0) :
    cycle s = .next (s.endCycle .ok) := by
  have hback : s.advance.setPc (s.pc + 2 - 2) = s := by
    rw [BitVec.add_sub_cancel]
    rfl
  have hexec : exec (.ldKey x) s.advance = .next (s.advance.setPc (s.pc + 2 - 2)) := exec_ldKey_wait x h
  rw [hback] at hexec
  exact cycle_ok hf hp hd hexec

/-- Settles O47, by induction on the number of cycles: after a waiting one the next has no released key either. -/
theorem waitGoesOnUntilARelease : Obligations.WaitGoesOnUntilARelease := by
  intro s x k
  induction k generalizing s with
  | zero => exact fun _ _ _ _ _ => ⟨s, rfl, rfl⟩
  | succ k ih =>
    intro hs hf hp hd hr
    obtain ⟨t, hrun, ht⟩ := ih (s.endCycle .ok) hs hf hp hd (released_endCycle s .ok)
    have hstep : step s = .next (s.endCycle .ok) :=
      (step_of_schedule_nil hs).trans (cycle_ldKey_wait hf hp hd hr)
    refine ⟨t, ?_, ht⟩
    rw [runSteps, hstep]
    exact hrun

end Sys2Proof.Machine
end

section
/-! PROOFS. The timers (spec/45_timers.md): any number of ticks, and the two instructions that write a timer. -/

namespace Sys2Proof.Machine

/-! ## The countdown (R200) -/

theorem countDown_iterate_toNat (b : Byte) (n : Nat) : (countDown^[n] b).toNat = b.toNat - n := by
  induction n with
  | zero => rfl
  | succ n ih => rw [Function.iterate_succ_apply', countDown_toNat, ih, Nat.sub_sub]

/-- A run of ticks counts each timer down on its own and writes nothing else. -/
theorem hostTick_iterate (s : State) (n : Nat) :
    hostTick^[n] s = { s with dt := countDown^[n] s.dt, st := countDown^[n] s.st } := by
  induction n with
  | zero => rfl
  | succ n ih => simp only [Function.iterate_succ_apply', ih, hostTick]

/-- Settles O49: the ticks are that many countdowns of each timer, and a countdown is truncated subtraction of one. -/
theorem ticksCountBothTimersDown : Obligations.TicksCountBothTimersDown := by
  intro s n t
  have ht : t = { s with dt := countDown^[n] s.dt, st := countDown^[n] s.st } := hostTick_iterate s n
  rw [ht]
  exact ⟨countDown_iterate_toNat s.dt n, countDown_iterate_toNat s.st n, rfl⟩

/-! ## LD DT,Vx and LD ST,Vx (R202, R203) -/

theorem exec_ldDt (x : Nibble) (s : State) : exec (.ldDt x) s = .next (s.setDt (s.reg x)) := rfl

theorem exec_ldSt (x : Nibble) (s : State) : exec (.ldSt x) s = .next (s.setSt (s.reg x)) := rfl

/-- Settles O48: each is one write of its timer. -/
theorem timerWritesReplaceTheCount : Obligations.TimerWritesReplaceTheCount :=
  fun s x => ⟨exec_ldDt x s, exec_ldSt x s⟩

end Sys2Proof.Machine
end

section
/-! PROOFS. Exceptions (spec/60_exceptions.md): where each instruction stops, and what a fault leaves to the host. -/

namespace Sys2Proof.Machine

/-! ## Where an instruction stops (R212, R213) -/

theorem rangeFault_eq_none {a : Word} {n : Nat} : rangeFault a n = none ↔ n = 0 ∨ a.toNat + n ≤ 4096 := by
  simp only [rangeFault, ite_eq_right_iff, reduceCtorEq, imp_false]
  omega

theorem rangeFault_eq_some {a : Word} {n : Nat} {r : Fault} :
    rangeFault a n = some r ↔ 0 < n ∧ a.toNat + n > 4096 ∧ r = .memoryOutOfRange (firstBad a) := by
  rw [rangeFault, Option.ite_none_right_eq_some, Option.some.injEq, eq_comm (b := r), ← and_assoc]
  exact and_congr_left fun _ => by omega

theorem exec_drw_fault {s : State} {n : Nibble} (x y : Nibble) (hn : 0 < n.toNat) (h : s.i.toNat + n.toNat > 4096) :
    exec (.drw x y n) s = .fault (.memoryOutOfRange (firstBad s.i)) := by
  show execDrw x y n s = _
  rw [execDrw, readBytes_error hn h]

/-- An instruction for which the table has a fault stops with it. -/
theorem exec_of_faultOf_some {i : Instr} {s : State} {r : Fault} (h : faultOf i s = some r) :
    exec i s = .fault r := by
  cases i
  case ret =>
    obtain ⟨hs, hr⟩ := Option.ite_none_right_eq_some.mp h
    exact Option.some.inj hr ▸ exec_ret_nil hs
  case call nnn =>
    obtain ⟨hfull, hr⟩ := Option.ite_none_right_eq_some.mp h
    exact Option.some.inj hr ▸ exec_call_full nnn hfull
  case drw x y n => obtain ⟨hn, hi, rfl⟩ := rangeFault_eq_some.mp h; exact exec_drw_fault x y hn hi
  case ldB x => obtain ⟨-, hi, rfl⟩ := rangeFault_eq_some.mp h; exact exec_ldB_fault x (by omega)
  case storeRegs x => obtain ⟨-, hi, rfl⟩ := rangeFault_eq_some.mp h; exact exec_storeRegs_fault (by omega)
  case loadRegs x => obtain ⟨-, hi, rfl⟩ := rangeFault_eq_some.mp h; exact exec_loadRegs_fault (by omega)
  all_goals cases h

/-- An instruction for which the table has no fault completes. -/
theorem exec_of_faultOf_none {i : Instr} {s : State} (h : faultOf i s = none) : ∃ t, exec i s = .next t := by
  cases i
  case ret =>
    have hs : s.stack ≠ [] := by simpa [faultOf] using h
    obtain ⟨w, rest, hs⟩ := List.exists_cons_of_ne_nil hs
    exact ⟨_, exec_ret_cons hs⟩
  case call nnn => exact ⟨_, exec_call_room nnn (by simpa [faultOf] using h)⟩
  case drw x y n => exact ⟨_, exec_drw_next.mpr ⟨rangeFault_eq_none.mp h, rfl⟩⟩
  case ldB x => have hi := rangeFault_eq_none.mp h; exact ⟨_, exec_ldB_next.mpr ⟨by omega, rfl⟩⟩
  case storeRegs x => have hi := rangeFault_eq_none.mp h; exact ⟨_, exec_storeRegs_next.mpr ⟨by omega, rfl⟩⟩
  case loadRegs x => have hi := rangeFault_eq_none.mp h; exact ⟨_, exec_loadRegs_next.mpr ⟨by omega, rfl⟩⟩
  case ldKey x =>
    by_cases hrel : released s = 0
    · exact ⟨_, exec_ldKey_wait x hrel⟩
    · obtain ⟨k, -, hk⟩ := exec_ldKey_load x hrel
      exact ⟨_, hk⟩
  all_goals exact ⟨_, rfl⟩

/-- Settles O11: the table has a fault for the instruction or has none, and says in either case what `exec` answers. -/
theorem instructionsStopExactlyWhereTheTableSays : Obligations.InstructionsStopExactlyWhereTheTableSays := by
  intro i s
  cases h : faultOf i s with
  | none =>
    obtain ⟨t, ht⟩ := exec_of_faultOf_none h
    simp [ht]
  | some r => simp [exec_of_faultOf_some h]

/-! ## After a fault (R211, R220) -/

theorem perform_cycle_of_fault {s : State} {r : Fault} (hf : s.faulted = false) (h : cycle s = .fault r) :
    perform .cycle s = some (s.afterFault r) := by
  simp [perform, h, hf]

theorem cycle_of_faulted {s : State} (hf : s.faulted = true) : cycle s = .fault .coreFaulted :=
  if_pos hf

theorem perform_cycle_of_faulted {s : State} (hf : s.faulted = true) : perform .cycle s = none := by
  simp [perform, cycle_of_faulted hf, hf]

/-- Of the host's operations `reset` clears the mark and the others leave it. -/
theorem applyHost_faulted_iff (op : HostOp) (s : State) :
    (applyHost op s).faulted = true ↔ s.faulted = true ∧ ∀ q, op ≠ .reset q := by
  by_cases hr : ∀ q, op ≠ .reset q
  · rw [applyHost_frame s hr]
    exact (and_iff_left hr).symm
  · obtain ⟨q, rfl⟩ := not_forall_not.mp hr
    exact iff_of_false Bool.false_ne_true fun h => hr h.2

/-- Settles O10: the state after the fault is the one before it with the mark, and a marked core has only the host's
operations, which keep the mark unless they reset. -/
theorem faultUndoesTheCycleAndSticks : Obligations.FaultUndoesTheCycleAndSticks :=
  fun _ _ hf h => ⟨perform_cycle_of_fault hf h, fun u hu => ⟨cycle_of_faulted hu, perform_cycle_of_faulted hu,
    fun op => ⟨_, rfl, (applyHost_faulted_iff op u).trans (and_iff_right hu)⟩⟩⟩

end Sys2Proof.Machine
end

section
/-! PROOFS. Reset, the loading of a program and the end of a run (spec/70_reset_and_hazards.md): the state `reset` leaves,
the image `load` copies, the final state, and the end of a run of unknown opcodes. -/

namespace Sys2Proof.Machine

/-! ## The state after reset (R40, R240) -/

theorem resetWith_inv {c : Config} (q : Quirks) (hvalid : c.valid = true) : (State.resetWith c q).Inv :=
  ⟨hvalid, Memory.wf_nil, fun _ _ => Nat.zero_le _⟩

/-- Settles O56: the default parameters are valid ones, and after reset memory lists nothing and the stack is empty. -/
theorem resetMeetsTheInvariant : Obligations.ResetMeetsTheInvariant :=
  ⟨resetWith_inv Quirks.absent (by decide), fun _ => resetWith_inv⟩

theorem resetByte_glyph (c : Config) (g : Fin 16) (k : Fin 5) :
    resetByte c (c.fontBase.toNat + 5 * g.val + k.val) = c.fontData[g][k] := by
  have hin : c.fontBase.toNat ≤ c.fontBase.toNat + 5 * g.val + k.val ∧
      c.fontBase.toNat + 5 * g.val + k.val < c.fontBase.toNat + 80 := by omega
  have hglyph : (c.fontBase.toNat + 5 * g.val + k.val - c.fontBase.toNat) / 5 = g.val := by omega
  have hrow : (c.fontBase.toNat + 5 * g.val + k.val - c.fontBase.toNat) % 5 = k.val := by omega
  rw [resetByte, dif_pos hin]
  simp only [hglyph, hrow, Fin.getElem_fin]

theorem resetByte_outside_font {c : Config} {a : Nat}
    (ha : ¬ (c.fontBase.toNat ≤ a ∧ a < c.fontBase.toNat + 80)) : resetByte c a = 0 :=
  dif_neg ha

/-- After `reset` no byte has been written, so each reads as its reset contents. -/
theorem byteAt_hostReset (q : Quirks) (s : State) (a : Nat) : (hostReset q s).byteAt a = resetByte s.config a := rfl

theorem reg_hostReset (q : Quirks) (s : State) (r : Nibble) : (hostReset q s).reg r = 0 :=
  Vector.getElem_replicate r.isLt

/-- Settles O54: registers, cells and bytes by their lemmas, the other fields as `State.resetWith` has them. -/
theorem resetEstablishesTheStatedState : Obligations.ResetEstablishesTheStatedState :=
  fun s q _ => ⟨reg_hostReset q s, rfl, rfl, rfl, cell_replicate_zero, rfl, rfl, rfl, rfl, rfl, rfl, rfl, rfl,
    resetByte_glyph s.config, fun _ => resetByte_outside_font⟩

/-! ## The load (R243, R244) -/

theorem hostLoad_of_fits {s : State} {bytes : List Byte} (h : bytes.length ≤ 4096 - s.config.programBase.toNat) :
    hostLoad bytes s = { s with mem := Memory.writeRun s.config s.mem s.config.programBase.toNat bytes,
                                report := .loaded } :=
  if_neg (Nat.not_lt.mpr h)

theorem hostLoad_of_too_large {s : State} {bytes : List Byte}
    (h : bytes.length > 4096 - s.config.programBase.toNat) :
    hostLoad bytes s = { s with report := .loadTooLarge bytes.length } :=
  if_pos h

/-- A byte after a load that fits: the image's inside it, the old one outside. -/
theorem byteAt_hostLoad {s : State} {bytes : List Byte} (hinv : s.Inv)
    (h : bytes.length ≤ 4096 - s.config.programBase.toNat) (x : Nat) :
    (hostLoad bytes s).byteAt x =
      if s.config.programBase.toNat ≤ x ∧ x < s.config.programBase.toNat + bytes.length then
        bytes.getD (x - s.config.programBase.toNat) 0
      else s.byteAt x := by
  obtain ⟨hvalid, hwf, -⟩ := hinv
  simp only [Config.valid, Bool.and_eq_true, decide_eq_true_eq] at hvalid
  rw [hostLoad_of_fits h]
  exact byteAt_writeRun hwf (by omega) x

/-- Settles O53: a load that fits is one run of writes from PROGRAM_BASE. -/
theorem loadCopiesTheImageOrNothing : Obligations.LoadCopiesTheImageOrNothing := by
  intro s bytes hinv base t
  refine ⟨fun hfits => ⟨?_, fun k hk => ?_, fun a ha => ?_⟩, hostLoad_of_too_large⟩
  · have hload : t = _ := hostLoad_of_fits hfits
    rw [hload]
  · rw [show t.byteAt (base + k) = _ from byteAt_hostLoad hinv hfits _, if_pos (by omega), Nat.add_sub_cancel_left,
      List.getD_eq_getElem _ _ hk, List.getElem?_eq_getElem hk]
  · rw [show t.byteAt a = _ from byteAt_hostLoad hinv hfits a, if_neg ha]

/-! ## The final state (R246) -/

theorem runSteps_succ_of_step {s u : State} (k : Nat) (h : step s = .next u) :
    runSteps (k + 1) s = runSteps k u := by
  rw [runSteps, h]

theorem decode_jp_word (A : Addr12) : decode (0x1000 + zext16 A) = .ok (.jp A) := by
  have hA : (zext16 A).toNat = A.toNat := zext16_toNat (by decide) A
  have hword : (0x1000 + zext16 A).toNat = 4096 + A.toNat := by bv_omega
  have hT : (fieldT (0x1000 + zext16 A)).toNat = (0x1 : Nibble).toNat := by
    rw [fieldT_toNat, hword]
    bv_omega
  have hNNN : fieldNNN (0x1000 + zext16 A) = A :=
    BitVec.eq_of_toNat_eq (by rw [fieldNNN_toNat, hword]; omega)
  rw [← wordNNN_of_fieldT hT, hNNN]
  exact decode_encode (i := .jp A) rfl

/-- A cycle at a JP to itself undoes its advance, so only the end of the cycle is left. -/
theorem cycle_of_finalAt {s : State} {A : Addr12} (h : s.FinalAt A) : cycle s = .next (s.endCycle .ok) := by
  obtain ⟨hpc, hA, hword, hf⟩ := h
  have hpcA : s.pc.toNat = A.toNat := by rw [hpc, zext16_toNat (by decide)]
  have hdecode : decode (s.wordAt s.pc.toNat) = .ok (.jp A) := by rw [hpcA, hword, decode_jp_word]
  have hback : s.advance.setPc (zext16 A) = s := by rw [← hpc]; rfl
  have hexec : exec (.jp A) s.advance = .next (s.advance.setPc (zext16 A)) := rfl
  rw [hback] at hexec
  exact cycle_ok hf (by omega) hdecode hexec

/-- Settles O59, by induction on the number of steps: the end of a cycle leaves the state final. -/
theorem finalStateStaysFinal : Obligations.FinalStateStaysFinal := by
  intro s A k
  induction k generalizing s with
  | zero => exact fun _ hfin => ⟨s, rfl, hfin, rfl⟩
  | succ k ih =>
    intro hs hfin
    have hstep : step s = .next (s.endCycle .ok) := (step_of_schedule_nil hs).trans (cycle_of_finalAt hfin)
    obtain ⟨t, hrun, ht, hframe⟩ := ih (s.endCycle .ok) hs hfin
    exact ⟨t, (runSteps_succ_of_step k hstep).trans hrun, ht, hframe⟩

/-! ## A run of unknown opcodes (R79, R246, R255) -/

/-- A step that reports an unknown opcode fetched inside memory and only advanced `pc`. -/
theorem step_reports_unknown {s u : State} {op : Word} (hs : s.OnlyCycles) (h : step s = .next u)
    (hrep : u.report = .unknownOpcode op) : s.pc.toNat ≤ 4094 ∧ u = s.advance.endCycle (.unknownOpcode op) := by
  rw [step_of_schedule_nil hs] at h
  obtain ⟨-, hpc, ⟨i, v, -, -, rfl⟩ | ⟨e, -, rfl⟩⟩ := cycle_cases h
  · cases hrep
  · rw [State.endCycle_report] at hrep
    exact ⟨hpc, by rw [hrep]⟩

theorem advance_pc_toNat {s : State} (h : s.pc.toNat ≤ 4094) : s.advance.pc.toNat = s.pc.toNat + 2 :=
  BitVec.toNat_add_of_lt (by simp; omega)

/-- With at most `n` words left before the end of memory, at most `n` steps in a row report an unknown opcode. -/
theorem unknownOpcodes_end_within (n : Nat) {s : State} (hs : s.OnlyCycles) (hn : 4096 ≤ s.pc.toNat + 2 * n) :
    ∃ k t, k ≤ n ∧ runSteps k s = .next t ∧ t.pc.toNat = s.pc.toNat + 2 * k ∧
      t = { s with pc := t.pc, lastKeys := t.lastKeys, report := t.report, cycleNo := t.cycleNo } ∧
      ¬ ∃ u op, step t = .next u ∧ u.report = .unknownOpcode op := by
  induction n generalizing s with
  | zero =>
    refine ⟨0, s, le_rfl, rfl, rfl, rfl, ?_⟩
    rintro ⟨u, op, hstep, hrep⟩
    obtain ⟨hpc, -⟩ := step_reports_unknown hs hstep hrep
    omega
  | succ n ih =>
    by_cases hnext : ∃ u op, step s = .next u ∧ u.report = .unknownOpcode op
    · obtain ⟨u, op, hstep, hrep⟩ := hnext
      obtain ⟨hpc, rfl⟩ := step_reports_unknown hs hstep hrep
      have hpc' := advance_pc_toNat hpc
      obtain ⟨k, t, hk, hrun, htpc, hframe, hend⟩ :=
        ih (s := s.advance.endCycle (.unknownOpcode op)) hs (by rw [State.endCycle_pc]; omega)
      rw [State.endCycle_pc] at htpc
      exact ⟨k + 1, t, by omega, (runSteps_succ_of_step k hstep).trans hrun, by omega, hframe, hend⟩
    · exact ⟨0, s, Nat.zero_le _, rfl, rfl, rfl, hnext⟩

/-- Settles O60: memory holds 2048 words, so from any `pc` no more are left before its end. -/
theorem unknownOpcodesDoNotRunForEver : Obligations.UnknownOpcodesDoNotRunForEver :=
  fun _ hs => unknownOpcodes_end_within 2048 hs (by omega)

end Sys2Proof.Machine
end
